-- ==== Sys2Proof/Word.lean ====
section
/-! DEFINITION. The word types of the block. -/

namespace Sys2Proof

/-- A 32-bit word: the command register, the argument registers and the internal operation words (R71, R74, R83). -/
abbrev Word := BitVec 32

/-- One packet byte (R51). -/
abbrev Byte := BitVec 8

/-- A duration of one symbol half, `DUR_BITS` = 15 bits wide (R9, R13). -/
abbrev Dur := BitVec 15

/-- An output level of one symbol half (R13). -/
abbrev Level := BitVec 1

end Sys2Proof
end

