-- ==== Sys2Proof/Machine/Memory.lean ====
section
/-! DEFINITION. The packet space (R51): the one memory the block reaches by index. It is owned by the host and
read-only to the block, so no operation of the block calls `Memory.write`. -/

namespace Sys2Proof.Machine

/-- The packet space as a list of (index, byte) pairs, indexes strictly rising and no entry 0. -/
abbrev Memory := List Host.Cell

/-- What an unlisted index reads as: the byte 0 (DESIGN CHOICE, unsafe: log entry 10). -/
def Memory.unlisted : Byte := 0

/-- The byte at index `a`. -/
def Memory.read : Memory → Nat → Byte
  | [], _ => Memory.unlisted
  | (k, b) :: rest, a => if k = a then b else Memory.read rest a

/-- The host stores byte `v` at index `a`; the canonical form is kept. -/
def Memory.write : Memory → Nat → Byte → Memory
  | [], a, v => if v = Memory.unlisted then [] else [(a, v)]
  | (k, b) :: rest, a, v =>
    if a < k then
      if v = Memory.unlisted then (k, b) :: rest else (a, v) :: (k, b) :: rest
    else if a = k then
      if v = Memory.unlisted then rest else (a, v) :: rest
    else (k, b) :: Memory.write rest a v

/-- Canonical from index `lo` on. -/
def Memory.wfFrom : Nat → Memory → Bool
  | _, [] => true
  | lo, (k, b) :: rest => decide (lo ≤ k) && b != Memory.unlisted && Memory.wfFrom (k + 1) rest

/-- The canonical form: indexes strictly rising, no entry equal to what an unlisted index reads as. -/
def Memory.wf (m : Memory) : Bool := Memory.wfFrom 0 m

/-- The packet space that holds `bs` from index `i` on. -/
def Memory.ofBytesFrom : Nat → List Byte → Memory
  | _, [] => []
  | i, b :: bs => if b = Memory.unlisted then Memory.ofBytesFrom (i + 1) bs else (i, b) :: Memory.ofBytesFrom (i + 1) bs

/-- The packet space that holds exactly `bs` (R51: `pkt[0..N-1]`). -/
def Memory.ofBytes (bs : List Byte) : Memory := Memory.ofBytesFrom 0 bs

end Sys2Proof.Machine
end

