-- ==== Sys2Proof/Machine/Registers.lean ====
section
/-! DEFINITION. The types of the block's registers. -/

namespace Sys2Proof.Machine

/-- A Symbol: duration and level of the first half, duration and level of the second half (R13). -/
structure Symbol where
  d0 : Dur
  l0 : Level
  d1 : Dur
  l1 : Level
deriving DecidableEq, Repr, Inhabited

/-- The phase register's values in the source's order (R23, R80). The codes 6 and 7 "are never written and are
unreachable", so the type has no value for them. -/
inductive Phase where
  | cutout
  | syncZero
  | preamble
  | start
  | data
  | endBit
deriving DecidableEq, Repr, Inhabited

/-- The configuration register file CFG (R28). -/
structure Cfg where
  preambleBits : BitVec 8
  bit1Duration : Dur
  bit0Duration : Dur
  endBitDuration : Dur
  bidiCutoutDuration : Dur
  polarityLevel0 : Level
  syncZeroEnabled : Bool
deriving DecidableEq, Repr, Inhabited

/-- The Symbol Timing Table SYM (R31). -/
structure SymTab where
  one : Symbol
  zero : Symbol
  endBit : Symbol
  cutout : Symbol
deriving DecidableEq, Repr, Inhabited

/-- The argument registers CREATE reads (R74). -/
structure CfgArgs where
  /-- `ARG_CFG_PRESENT` -/
  present : Bool
  /-- `ARG_PREAMBLE` -/
  preamble : Word
  /-- `ARG_BIT1` -/
  bit1 : Word
  /-- `ARG_BIT0` -/
  bit0 : Word
  /-- `ARG_END` -/
  endBit : Word
  /-- `ARG_CUTOUT` -/
  cutout : Word
  /-- `ARG_FLAGS` -/
  flags : Word
deriving DecidableEq, Repr, Inhabited

/-- The argument registers ENCODE reads (R75). -/
structure PktArgs where
  /-- `ARG_PKT_PRESENT` -/
  present : Bool
  /-- `ARG_LEN` -/
  len : Word
  /-- `ARG_PKT`: the packet space -/
  pkt : Memory
deriving DecidableEq, Repr, Inhabited

/-- The reasons of `raise Refused(reason)` (R204). -/
inductive RefusalReason where
  | reservedEncoding
  | notCreated
  | alreadyCreated
  | noPacket
  | badLength
  | packetChanged
deriving DecidableEq, Repr

/-- What an emitter reports (R120, R122). -/
inductive EmitVerdict where
  | complete
  | full
deriving DecidableEq, Repr

/-- What a phase handler reports (42_packet_encoder.md, before R140). -/
inductive PhaseVerdict where
  | next
  | full
  | done
deriving DecidableEq, Repr

/-- The pair an internal operation returns: symbols written and verdict. -/
inductive OpReturn where
  | emit (k : Nat) (v : EmitVerdict)
  | phase (k : Nat) (v : PhaseVerdict)
deriving DecidableEq, Repr

/-- The answers of a party outside the block, as an input of the step: those listed come first, and after them each
answer is a free value (R21, R55, R181). -/
structure Draws where
  listed : List Bool
  taken : Nat
deriving DecidableEq, Repr, Inhabited

/-- The registers DESTROY leaves unspecified (R190, R37). -/
structure InstanceRegs where
  cfg : Cfg
  cutoutEnabled : Bool
  sym : SymTab
  phase : Phase
  progress : BitVec 8
  byteIndex : BitVec 32
  bitCursor : BitVec 3
deriving DecidableEq, Repr, Inhabited

end Sys2Proof.Machine
end

