-- ==== Sys2Proof/Config.lean ====
section
/-! DEFINITION. The implementation parameters (R8, R9) and the free values. Everything the spec leaves open is an
opaque constant with no body: no proof can see what it is. -/

namespace Sys2Proof

/-- `END_SYMBOL_FORM` (R9, R112). -/
inductive EndSymbolForm where
  | bothHalves
  | secondHalfOnly
deriving DecidableEq, Repr, Inhabited

/-- The named parameters of R8 and R9. -/
structure Params where
  preMin : Nat
  preMax : Nat
  b1Min : Nat
  b1Max : Nat
  b0Min : Nat
  b0Max : Nat
  cutMin : Nat
  cutMax : Nat
  maxPacketLen : Nat
  endSymbolForm : EndSymbolForm
  allocMayFail : Bool
deriving DecidableEq, Repr

/-- `CUTOUT_SYMBOLS`, "fixed at 4, not a parameter" (R9). -/
def Config.cutoutSymbols : Nat := 4

/-- The constraints the parameters must satisfy (R8; for `MAX_PACKET_LEN`, R9). -/
abbrev Params.Legal (p : Params) : Prop :=
  (1 ≤ p.preMin ∧ p.preMin ≤ 14 ∧ 14 ≤ p.preMax ∧ p.preMax < 2 ^ 8) ∧
  (1 ≤ p.b1Min ∧ p.b1Min ≤ 58 ∧ 58 ≤ p.b1Max ∧ p.b1Max < 2 ^ 15) ∧
  (1 ≤ p.b0Min ∧ p.b0Min ≤ 100 ∧ 100 ≤ p.b0Max ∧ p.b0Max < 2 ^ 15) ∧
  (1 ≤ p.cutMin ∧ p.cutMin ≤ p.cutMax ∧ p.cutMax < 2 ^ 15) ∧
  (1 ≤ p.maxPacketLen ∧ 261 + 9 * p.maxPacketLen ≤ 2 ^ 32 - 1)

/-- Profile P0 (92_eei_decisions.md D2), "used only by the test vectors". Its `MAX_PACKET_LEN` is the largest R9
allows. -/
def Config.profileP0 : Params where
  preMin := 14
  preMax := 30
  b1Min := 55
  b1Max := 61
  b0Min := 95
  b0Max := 9900
  cutMin := 57
  cutMax := 61
  maxPacketLen := 477218559
  endSymbolForm := .bothHalves
  allocMayFail := true

/-- The open parameters of the machine at hand, as offsets inside the ranges R8 and R9 leave: `PRE_MIN` - 1. -/
opaque Config.preMinAbove : Fin 14
/-- `PRE_MAX` - 14 -/
opaque Config.preMaxAbove : Fin 242
/-- `B1_MIN` - 1 -/
opaque Config.b1MinAbove : Fin 58
/-- `B1_MAX` - 58 -/
opaque Config.b1MaxAbove : Fin 32710
/-- `B0_MIN` - 1 -/
opaque Config.b0MinAbove : Fin 100
/-- `B0_MAX` - 100 -/
opaque Config.b0MaxAbove : Fin 32668
/-- `CUT_MAX` - 1 -/
opaque Config.cutMaxAbove : Fin 32767
/-- `CUT_MIN` - 1, reduced below `CUT_MAX` where it is used -/
opaque Config.cutMinAbove : Nat
/-- `MAX_PACKET_LEN` - 1 -/
opaque Config.maxPacketLenAbove : Fin 477218559
/-- `END_SYMBOL_FORM` -/
opaque Config.endSymbolForm : EndSymbolForm
/-- `ALLOC_MAY_FAIL` -/
opaque Config.allocMayFail : Bool

/-- The parameters of the machine at hand: any legal ones. -/
def Config.params : Params where
  preMin := 1 + Config.preMinAbove.val
  preMax := 14 + Config.preMaxAbove.val
  b1Min := 1 + Config.b1MinAbove.val
  b1Max := 58 + Config.b1MaxAbove.val
  b0Min := 1 + Config.b0MinAbove.val
  b0Max := 100 + Config.b0MaxAbove.val
  cutMin := 1 + Config.cutMinAbove % (1 + Config.cutMaxAbove.val)
  cutMax := 1 + Config.cutMaxAbove.val
  maxPacketLen := 1 + Config.maxPacketLenAbove.val
  endSymbolForm := Config.endSymbolForm
  allocMayFail := Config.allocMayFail

/-- The transmit peripheral's n-th answer to `SymWrite` where no answer is listed: "a draw of the environment: the
model places no law on it" (R55). -/
opaque Config.symWriteAnswer : Nat → Bool

/-- The n-th answer of `alloc_draw()` where none is listed, true for OK: "a draw of the environment with no law"
(R181). -/
opaque Config.allocAnswer : Nat → Bool

/-- What the n-th DESTROY leaves in the registers it leaves unspecified (R190). -/
opaque Config.unspecified : Nat → Machine.InstanceRegs

end Sys2Proof
end

