-- ==== Sys2Proof/Syntax.lean ====
section
/-! DEFINITION. The operations of the block: one constructor per row of spec/opcode_table.json (R2, R72, R83). -/

namespace Sys2Proof

/-- The operand `SEL` of EMIT_BIT: which of the four symbols of the Symbol Timing Table (R83, R120). -/
inductive Sel where
  | one
  | zero
  | endBit
  | cutout
deriving DecidableEq, Repr, Inhabited

/-- The block's operations (R2): four host commands, two emitters and six phase handlers. -/
inductive Instr where
  /-- CREATE (R180) -/
  | create
  /-- RESET (R185) -/
  | reset
  /-- ENCODE (R140) -/
  | encode
  /-- DESTROY (R190) -/
  | destroy
  /-- EMIT_BIT (R120) -/
  | emitBit (sel : Sel)
  /-- EMIT_BYTE (R122) -/
  | emitByte (b : Byte)
  /-- PH_CUTOUT (R150) -/
  | phCutout
  /-- PH_SYNCZERO (R151) -/
  | phSyncZero
  /-- PH_PREAMBLE (R152) -/
  | phPreamble
  /-- PH_START (R153) -/
  | phStart
  /-- PH_DATA (R154) -/
  | phData
  /-- PH_END (R155) -/
  | phEnd
deriving DecidableEq, Repr, Inhabited

/-- Where an operation word comes from. The host writes `CMD` (R70). The internal words "exist only inside the
sequencer" (R83). -/
inductive Port where
  | host
  | sequencer
deriving DecidableEq, Repr, Inhabited

end Sys2Proof
end

