-- ==== Sys2Proof/Machine/State.lean ====
section
/-! DEFINITION. The state of the block and of its command interface, the reasons a step stops, and the state at
power-on. -/

namespace Sys2Proof.Machine

/-- Why the machine stops with a fault. -/
inductive Fault where
  /-- Raised by `PktRead` (in PH_DATA, alone or inside ENCODE) for an index i with i ≥ N: R52 gives `PktRead` for
  `0 <= i < N` only. Safe; no host command reaches it from a state that holds the invariants of R36. -/
  | pktIndexOutOfRange
  /-- Raised by ENCODE if its dispatch loop ran for more than 2N + 4 handlers. Safe; no state reaches it (obligation
  `EncodeNeverReachesDispatchBound`, log entry 13). -/
  | dispatchBound
deriving DecidableEq, Repr

/-- Why the model gives a step no meaning. -/
inductive Refusal where
  /-- Raised by an arm of `exec` that has no meaning. Safe; no arm raises it. -/
  | notModelled (mnemonic : String)
  /-- Raised by the step for an internal operation word of a bit pattern that R83 says "is never formed". Safe; the
  host's command words never raise it. -/
  | wordNeverFormed (w : Word)
deriving DecidableEq, Repr

/-- One operation waiting to run: the word, the place it comes from, and the argument registers written before it
(R70: "The host sets the argument registers first"); `none` leaves them as they are. -/
structure Issue where
  port : Port
  cfgArgs : Option CfgArgs
  pktArgs : Option PktArgs
  word : Word
deriving DecidableEq, Repr

/-- The state. -/
structure State where
  /-- R22 -/
  created : Bool
  /-- R28 -/
  cfg : Cfg
  /-- R29 -/
  cutoutEnabled : Bool
  /-- R31 -/
  sym : SymTab
  /-- R23, the sequencer's program counter -/
  phase : Phase
  /-- R24 -/
  progress : BitVec 8
  /-- R25 -/
  byteIndex : BitVec 32
  /-- R26 -/
  bitCursor : BitVec 3
  /-- `CMD` (R70) -/
  cmd : Word
  /-- The argument registers of R74 -/
  cfgArgs : CfgArgs
  /-- The argument registers of R75, the packet space among them (R51) -/
  pktArgs : PktArgs
  /-- `RES_STATUS` (R33, R82) -/
  resStatus : BitVec 2
  /-- `RES_WRITTEN` (R33) -/
  resWritten : BitVec 32
  /-- `RES_STATE` (R33, R81) -/
  resState : BitVec 2
  /-- The ghost `pkt_latch` (R35) -/
  pktLatch : Option (List Byte)
  /-- The ghost `refused` (R35, R206) -/
  refused : Bool
  /-- The reason recorded by the last `raise Refused` (R206) -/
  refusedReason : Option RefusalReason
  /-- The symbol output stream: every symbol accepted since power-on, oldest first (R54, R60) -/
  out : List Symbol
  /-- Model's own: the pair returned by the last internal operation run as a step of its own (R120 to R155) -/
  opReturn : Option OpReturn
  /-- Model's own: the host's program, an input of the step (R21), oldest first -/
  pending : List Issue
  /-- Model's own: the transmit peripheral's answers to `SymWrite`, an input of the step (R21, R55) -/
  symDraws : Draws
  /-- Model's own: the answers of `alloc_draw()`, true for OK, an input of the step (R181) -/
  allocDraws : Draws
  /-- Model's own: how many free values DESTROY has taken (R190) -/
  freeTaken : Nat
  /-- Model's own: the parameters of R8 and R9, "inputs of the step, or parameters of it" (R21); nothing writes
  them -/
  params : Params
deriving DecidableEq, Repr

/-- The registers that have no value at power-on in the spec hold zero (DESIGN CHOICE, unsafe: log entry 1). -/
def zeroSymbol : Symbol := ⟨0, 0, 0, 0⟩

/-- The state at power-on (R230) of a block with parameters `p`: `created = 0`, `refused = false`,
`pkt_latch = none`; every other register zero (log entry 1). -/
def State.resetWith (p : Params) : State where
  created := false
  cfg := ⟨0, 0, 0, 0, 0, 0, false⟩
  cutoutEnabled := false
  sym := ⟨zeroSymbol, zeroSymbol, zeroSymbol, zeroSymbol⟩
  phase := .cutout
  progress := 0
  byteIndex := 0
  bitCursor := 0
  cmd := 0
  cfgArgs := ⟨false, 0, 0, 0, 0, 0, 0⟩
  pktArgs := ⟨false, 0, []⟩
  resStatus := 0
  resWritten := 0
  resState := 0
  pktLatch := none
  refused := false
  refusedReason := none
  out := []
  opReturn := none
  pending := []
  symDraws := ⟨[], 0⟩
  allocDraws := ⟨[], 0⟩
  freeTaken := 0
  params := p

/-- The state at power-on (R230), for the parameters of the machine at hand. -/
def State.reset : State := State.resetWith Config.params

end Sys2Proof.Machine
end

