-- ==== Sys2Proof/Machine/Operands.lean ====
section
/-! DEFINITION. How operands are assembled from the argument registers (R74 to R76), the packet reads (R51, R52), and
the codes of R77 to R82. -/

namespace Sys2Proof.Machine

/-- The phase code (R80). -/
def Phase.code : Phase → BitVec 3
  | .cutout => 0
  | .syncZero => 1
  | .preamble => 2
  | .start => 3
  | .data => 4
  | .endBit => 5

/-- The symbol word `{l1, d1[14:0], l0, d0[14:0]}` (R77, R78). -/
def Symbol.word (y : Symbol) : Word := y.l1 ++ y.d1 ++ y.l0 ++ y.d0

/-- The Symbol of a symbol word (R78). -/
def Symbol.ofWord (w : Word) : Symbol where
  d0 := w.extractLsb' 0 15
  l0 := w.extractLsb' 15 1
  d1 := w.extractLsb' 16 15
  l1 := w.extractLsb' 31 1

/-- `RES_STATUS` codes (R82). -/
def statusOk : BitVec 2 := 0
def statusInvalidArg : BitVec 2 := 1
def statusNoMem : BitVec 2 := 2

/-- `RES_STATE` codes (R81); `none`, code 0, is never written. -/
def stateComplete : BitVec 2 := 1
def stateBufferFull : BitVec 2 := 2

/-- `polarity_level0 = ARG_FLAGS[0]` (R74, R76). -/
def CfgArgs.polarityLevel0 (a : CfgArgs) : Level := a.flags.extractLsb' 0 1

/-- `sync_zero_enabled = ARG_FLAGS[1]` (R74, R76). -/
def CfgArgs.syncZeroEnabled (a : CfgArgs) : Bool := a.flags.getLsbD 1

/-- `ARG_FLAGS[31:2]` (R74, R107). -/
def CfgArgs.reservedFlags (a : CfgArgs) : BitVec 30 := a.flags.extractLsb' 2 30

/-- The CFG a CREATE stores: the low bits of each argument (R76, R180). -/
def CfgArgs.toCfg (a : CfgArgs) : Cfg where
  preambleBits := a.preamble.extractLsb' 0 8
  bit1Duration := a.bit1.extractLsb' 0 15
  bit0Duration := a.bit0.extractLsb' 0 15
  endBitDuration := a.endBit.extractLsb' 0 15
  bidiCutoutDuration := a.cutout.extractLsb' 0 15
  polarityLevel0 := a.polarityLevel0
  syncZeroEnabled := a.syncZeroEnabled

/-- `N` (R75). -/
def State.packetLen (s : State) : Nat := s.pktArgs.len.toNat

/-- `pkt[0..N-1]` (R51). -/
def State.packet (s : State) : List Byte :=
  (List.range s.packetLen).map (Memory.read s.pktArgs.pkt)

/-- `PktRead(i)` (R52), for `0 <= i < N`; the packet space has no index beyond. -/
def pktRead (s : State) (i : Nat) : Except Fault Byte :=
  if i < s.packetLen then .ok (Memory.read s.pktArgs.pkt i) else .error .pktIndexOutOfRange

end Sys2Proof.Machine
end

