-- ==== Sys2Proof/Machine/Flags.lean ====
section
/-! DEFINITION. "The block has no condition codes" (R32). Its Boolean state that is computed rather than copied:
`cutout_enabled` (R29), the checks of a configuration (R100 to R108), and how many symbols a phase needs (R30). -/

namespace Sys2Proof.Machine

/-- `cutout_enabled = (CFG.bidi_cutout_duration != 0)` (R29). -/
def Cfg.cutoutFlag (c : Cfg) : Bool := c.bidiCutoutDuration != 0

/-- `lo <= v <= hi` on unsigned naturals (R10). -/
def inWindow (lo hi : Nat) (v : Word) : Bool := decide (lo ≤ v.toNat) && decide (v.toNat ≤ hi)

/-- Check `V_PRESENT` (R101). -/
def checkPresent (a : CfgArgs) : Bool := a.present

/-- Check `V_PREAMBLE` (R102). -/
def checkPreamble (p : Params) (a : CfgArgs) : Bool := inWindow p.preMin p.preMax a.preamble

/-- Check `V_CUTOUT` (R103): 0 means disabled. -/
def checkCutout (p : Params) (a : CfgArgs) : Bool := a.cutout == 0 || inWindow p.cutMin p.cutMax a.cutout

/-- Check `V_BIT1` (R104). -/
def checkBit1 (p : Params) (a : CfgArgs) : Bool := inWindow p.b1Min p.b1Max a.bit1

/-- Check `V_BIT0` (R105). -/
def checkBit0 (p : Params) (a : CfgArgs) : Bool := inWindow p.b0Min p.b0Max a.bit0

/-- Check `V_END` (R106): no lower bound other than 0. -/
def checkEnd (p : Params) (a : CfgArgs) : Bool := decide (a.endBit.toNat ≤ p.b1Max)

/-- `valid(args)` (R108), on the full 32-bit values (R76). -/
def valid (p : Params) (a : CfgArgs) : Bool :=
  checkPresent a && checkPreamble p a && checkCutout p a && checkBit1 p a && checkBit0 p a && checkEnd p a

/-- `need(p)`, the number of symbols phase `p` emits (R30). -/
def need (c : Cfg) (cutoutEnabled : Bool) : Phase → Nat
  | .cutout => if cutoutEnabled then Config.cutoutSymbols else 0
  | .syncZero => if c.syncZeroEnabled then 1 else 0
  | .preamble => c.preambleBits.toNat
  | .start => 1
  | .data => 8
  | .endBit => 1

end Sys2Proof.Machine
end

