-- ==== Sys2Proof/Machine/SymbolTable.lean ====
section
/-! DEFINITION. The Symbol Timing Table: the symbols a validated configuration gives (R109 to R114). -/

namespace Sys2Proof.Machine

/-- A symbol with first half `d0` at level `L` and second half `d1` at `nL = 1 - L` (R109). -/
def levelPair (l : Level) (d0 d1 : Dur) : Symbol := ⟨d0, l, d1, 1 - l⟩

/-- `E`: the end-bit duration, 0 meaning the bit-1 duration (R112). -/
def Cfg.endDuration (c : Cfg) : Dur := if c.endBitDuration ≠ 0 then c.endBitDuration else c.bit1Duration

/-- `SYM.END`, by `END_SYMBOL_FORM` (R112). -/
def endSymbol (f : EndSymbolForm) (c : Cfg) : Symbol :=
  match f with
  | .bothHalves => levelPair c.polarityLevel0 c.endDuration c.endDuration
  | .secondHalfOnly => levelPair c.polarityLevel0 c.bit1Duration c.endDuration

/-- `derive(CFG)` (R110 to R113). -/
def derive (f : EndSymbolForm) (c : Cfg) : SymTab where
  one := levelPair c.polarityLevel0 c.bit1Duration c.bit1Duration
  zero := levelPair c.polarityLevel0 c.bit0Duration c.bit0Duration
  endBit := endSymbol f c
  cutout := levelPair c.polarityLevel0 c.bidiCutoutDuration c.bidiCutoutDuration

/-- `SYM[SEL]` (R120). -/
def SymTab.get (t : SymTab) : Sel → Symbol
  | .one => t.one
  | .zero => t.zero
  | .endBit => t.endBit
  | .cutout => t.cutout

end Sys2Proof.Machine
end

