-- ==== Sys2Proof/Machine/Ops.lean ====
section
/-! DEFINITION. The operations the meanings share: the refusal, the environment's draws, the symbol write, and the
loops of the emitters and of the phase handlers. -/

namespace Sys2Proof.Machine

/-- `raise Refused(reason)` (R206): the mark is set, the reason recorded, and nothing else changes. It is the block's
only counterpart of taking an exception: "No state is saved, no mode changes, and control goes to no vector" (R207),
and nothing resembles a return (R208). -/
def raise (r : RefusalReason) (s : State) : State :=
  { s with refused := true, refusedReason := some r }

/-- One answer of a party outside the block: the next listed one, or the free value where none is listed. -/
def Draws.answer (free : Nat → Bool) (d : Draws) : Bool :=
  match d.listed with
  | a :: _ => a
  | [] => free d.taken

/-- The answers left after one is taken. -/
def Draws.rest (d : Draws) : Draws := ⟨d.listed.tail, d.taken + 1⟩

/-- The transmit peripheral's answer to the next `SymWrite` (R55). -/
def State.symAnswer (s : State) : Bool := s.symDraws.answer Config.symWriteAnswer

/-- The answer of the next `alloc_draw()`, true for OK (R181). -/
def State.allocAnswer (s : State) : Bool := s.allocDraws.answer Config.allocAnswer

/-- An accepted `SymWrite(y)`: `y` is appended at the tail of the output stream (R55, R59). -/
def State.accepted (y : Symbol) (s : State) : State :=
  { s with out := s.out ++ [y], symDraws := s.symDraws.rest }

/-- A refused `SymWrite`: "nothing has been written" (R55, R59). -/
def State.notAccepted (s : State) : State := { s with symDraws := s.symDraws.rest }

/-- What an emitter returns: `(k, r)` and the state. -/
structure EmitRet where
  count : Nat
  verdict : EmitVerdict
  st : State
deriving DecidableEq, Repr

/-- What a phase handler returns: `(k, v)` and the state. -/
structure PhaseRet where
  count : Nat
  verdict : PhaseVerdict
  st : State
deriving DecidableEq, Repr

/-- EMIT_BIT(SEL) (R120): one symbol, or nothing. It is the only caller of `SymWrite` (R121). -/
def emitBit (sel : Sel) (s : State) : EmitRet :=
  if s.symAnswer then ⟨1, .complete, s.accepted (s.sym.get sel)⟩ else ⟨0, .full, s.notAccepted⟩

/-- `sel <- (bit = 1) ? ONE : ZERO` (R122, R125). -/
def selOfBit (b : Bool) : Sel := if b then .one else .zero

/-- `bit_cursor <- v` -/
def State.withCursor (v : BitVec 3) (s : State) : State := { s with bitCursor := v }

/-- The loop of EMIT_BYTE (R122) with `n` bits of `b` left, that is at `bit_cursor = 8 - n`: bit `7 - bit_cursor` is
`n - 1`. The stored cursor goes back to 0 when the byte is finished. -/
def emitBits (b : Byte) : Nat → State → EmitRet
  | 0, s => ⟨0, .complete, s.withCursor 0⟩
  | n + 1, s =>
    let e := emitBit (selOfBit (b.getLsbD n)) s
    match e.verdict with
    | .full => ⟨0, .full, e.st⟩
    | .complete =>
      let r := emitBits b n (e.st.withCursor (BitVec.ofNat 3 (8 - n)))
      ⟨e.count + r.count, r.verdict, r.st⟩

/-- EMIT_BYTE(b) (R122). -/
def emitByte (b : Byte) (s : State) : EmitRet := emitBits b (8 - s.bitCursor.toNat) s

/-- `progress <- progress + 1` -/
def State.bump (s : State) : State := { s with progress := s.progress + 1 }

/-- A phase's transfer of control: `phase <- p; progress <- 0` (R11, R24). -/
def State.toPhase (p : Phase) (s : State) : State := { s with phase := p, progress := 0 }

/-- The loop of the phase handlers with `n` symbols left to emit: each accepted symbol advances `progress`
(R150 to R153). -/
def emitRun (sel : Sel) : Nat → State → EmitRet
  | 0, s => ⟨0, .complete, s⟩
  | n + 1, s =>
    let e := emitBit sel s
    match e.verdict with
    | .full => ⟨0, .full, e.st⟩
    | .complete =>
      let r := emitRun sel n e.st.bump
      ⟨e.count + r.count, r.verdict, r.st⟩

/-- A phase of `total` symbols `sel`, resumed at `progress`, with the fixed successor `nxt` (R23, R150 to R153). -/
def emitPhase (sel : Sel) (total : Nat) (nxt : Phase) (s : State) : PhaseRet :=
  let r := emitRun sel (total - s.progress.toNat) s
  match r.verdict with
  | .full => ⟨r.count, .full, r.st⟩
  | .complete => ⟨r.count, .next, r.st.toPhase nxt⟩

/-- `SymWrite`'s companion for CREATE: `alloc_draw()` (R181). -/
def State.allocTaken (s : State) : State := { s with allocDraws := s.allocDraws.rest }

/-- The pair an internal operation returned, kept for a step of its own. -/
def State.returned (r : OpReturn) (s : State) : State := { s with opReturn := some r }

end Sys2Proof.Machine
end

