-- ==== Sys2Proof/Machine/Emitters.lean ====
section
/-! DEFINITION. EMIT_BIT and EMIT_BYTE as operations of their own (41_emitters.md). -/

namespace Sys2Proof.Machine

/-- The end of an emitter run as a step of its own: `return (k, r)`. -/
def returnEmit (r : EmitRet) : State := r.st.returned (.emit r.count r.verdict)

/-- EMIT_BIT (R120). -/
def execEmitBit (sel : Sel) (s : State) : Host.Outcome State Fault Refusal :=
  .next (returnEmit (emitBit sel s))

/-- EMIT_BYTE (R122). -/
def execEmitByte (b : Byte) (s : State) : Host.Outcome State Fault Refusal :=
  .next (returnEmit (emitByte b s))

end Sys2Proof.Machine
end

