-- ==== Sys2Proof/Machine/Phases.lean ====
section
/-! DEFINITION. The six phase handlers (R150 to R155), and each as an operation of its own. -/

namespace Sys2Proof.Machine

/-- PH_CUTOUT (R150): 4 cutout symbols when enabled, none when disabled. -/
def phCutout (s : State) : PhaseRet :=
  emitPhase .cutout (need s.cfg s.cutoutEnabled .cutout) .syncZero s

/-- PH_SYNCZERO (R151): one zero symbol when enabled, none when disabled. -/
def phSyncZero (s : State) : PhaseRet :=
  emitPhase .zero (need s.cfg s.cutoutEnabled .syncZero) .preamble s

/-- PH_PREAMBLE (R152): `CFG.preamble_bits` one symbols. -/
def phPreamble (s : State) : PhaseRet :=
  emitPhase .one (need s.cfg s.cutoutEnabled .preamble) .start s

/-- PH_START (R153): one zero symbol before every data byte. -/
def phStart (s : State) : PhaseRet :=
  emitPhase .zero (need s.cfg s.cutoutEnabled .start) .data s

/-- PH_DATA once the byte is read (R154): after the last byte comes End, after any other Start. -/
def phDataByte (b : Byte) (s : State) : PhaseRet :=
  let r := emitByte b s
  match r.verdict with
  | .full => ⟨r.count, .full, r.st⟩
  | .complete =>
    let i := r.st.byteIndex + 1
    let t := { r.st with byteIndex := i }
    ⟨r.count, .next, t.toPhase (if i = r.st.pktArgs.len then .endBit else .start)⟩

/-- PH_DATA(N) (R154). -/
def phData (s : State) : Except Fault PhaseRet :=
  match pktRead s s.byteIndex.toNat with
  | .error f => .error f
  | .ok b => .ok (phDataByte b s)

/-- PH_END (R155): one end symbol, and the cycle is done. -/
def phEnd (s : State) : PhaseRet :=
  let r := emitBit .endBit s
  match r.verdict with
  | .full => ⟨r.count, .full, r.st⟩
  | .complete =>
    let t := { r.st with byteIndex := 0 }
    ⟨r.count, .done, t.toPhase .cutout⟩

/-- The end of a phase handler run as a step of its own: `return (k, v)`. -/
def returnPhase (r : PhaseRet) : State := r.st.returned (.phase r.count r.verdict)

/-- PH_CUTOUT as a step (R150). -/
def execPhCutout (s : State) : Host.Outcome State Fault Refusal := .next (returnPhase (phCutout s))

/-- PH_SYNCZERO as a step (R151). -/
def execPhSyncZero (s : State) : Host.Outcome State Fault Refusal := .next (returnPhase (phSyncZero s))

/-- PH_PREAMBLE as a step (R152). -/
def execPhPreamble (s : State) : Host.Outcome State Fault Refusal := .next (returnPhase (phPreamble s))

/-- PH_START as a step (R153). -/
def execPhStart (s : State) : Host.Outcome State Fault Refusal := .next (returnPhase (phStart s))

/-- PH_DATA as a step (R154). -/
def execPhData (s : State) : Host.Outcome State Fault Refusal :=
  match phData s with
  | .error f => .fault f
  | .ok r => .next (returnPhase r)

/-- PH_END as a step (R155). -/
def execPhEnd (s : State) : Host.Outcome State Fault Refusal := .next (returnPhase (phEnd s))

end Sys2Proof.Machine
end

