-- ==== Sys2Proof/Machine/Encode.lean ====
section
/-! DEFINITION. ENCODE (R140 to R148): the checks, the dispatch loop and the two results. -/

namespace Sys2Proof.Machine

/-- `check_encode_args()` (R142): the first condition that holds, in this order. -/
def checkEncodeArgs (s : State) : Option RefusalReason :=
  if s.created = false then some .notCreated
  else if s.pktArgs.present = false then some .noPacket
  else if s.packetLen = 0 ∨ s.params.maxPacketLen < s.packetLen then some .badLength
  else if s.pktLatch ≠ none ∧ s.pktLatch ≠ some s.packet then some .packetChanged
  else none

/-- `if pkt_latch = none: pkt_latch <- pkt[0..N-1]` (R141). -/
def State.latched (s : State) : State :=
  if s.pktLatch = none then { s with pktLatch := some s.packet } else s

/-- `case phase of` (R141). -/
def dispatch (s : State) : Except Fault PhaseRet :=
  match s.phase with
  | .cutout => .ok (phCutout s)
  | .syncZero => .ok (phSyncZero s)
  | .preamble => .ok (phPreamble s)
  | .start => .ok (phStart s)
  | .data => phData s
  | .endBit => .ok (phEnd s)

/-- `RES_WRITTEN <- written; RES_STATE <- v` (R141). -/
def State.report (written : Nat) (v : BitVec 2) (s : State) : State :=
  { s with resWritten := BitVec.ofNat 32 written, resState := v }

/-- `pkt_latch <- none` (R141). -/
def State.unlatched (s : State) : State := { s with pktLatch := none }

/-- The loop of ENCODE (R141), for at most the given number of handlers, with `written` symbols so far. -/
def encodeLoop : Nat → Nat → State → Host.Outcome State Fault Refusal
  | 0, _, _ => .fault .dispatchBound
  | n + 1, written, s =>
    match dispatch s with
    | .error f => .fault f
    | .ok r =>
      match r.verdict with
      | .full => .next (r.st.report (written + r.count) stateBufferFull)
      | .done => .next (r.st.unlatched.report (written + r.count) stateComplete)
      | .next => encodeLoop n (written + r.count) r.st

/-- The most handlers one ENCODE runs: three head phases, Start and Data for each byte, End (R148). -/
def encodeBound (s : State) : Nat := 2 * s.packetLen + 4

/-- ENCODE (R140, R141). -/
def execEncode (s : State) : Host.Outcome State Fault Refusal :=
  match checkEncodeArgs s with
  | some r => .next (raise r s)
  | none => encodeLoop (encodeBound s) 0 s.latched

end Sys2Proof.Machine
end

