-- ==== Sys2Proof/Machine/Lifecycle.lean ====
section
/-! DEFINITION. CREATE, RESET and DESTROY (43_lifecycle.md). -/

namespace Sys2Proof.Machine

/-- `RES_STATUS <- v` -/
def State.withStatus (v : BitVec 2) (s : State) : State := { s with resStatus := v }

/-- The start of a packet: `phase <- SyncZero; progress <- 0; byte_index <- 0; bit_cursor <- 0; pkt_latch <- none`
(R180, R185, R231). -/
def State.packetStart (s : State) : State :=
  { s with phase := .syncZero, progress := 0, byteIndex := 0, bitCursor := 0, pktLatch := none }

/-- The CFG, `cutout_enabled` and SYM a successful CREATE writes (R180). -/
def State.configured (c : Cfg) (s : State) : State :=
  { s with cfg := c, cutoutEnabled := c.cutoutFlag, sym := derive s.params.endSymbolForm c }

/-- A successful CREATE (R180). -/
def State.constructed (s : State) : State :=
  { (s.configured s.cfgArgs.toCfg).packetStart with created := true, resStatus := statusOk }

/-- The allocation of R181: no draw is made when `ALLOC_MAY_FAIL` is false. -/
def allocate (s : State) : Bool × State :=
  if s.params.allocMayFail then (s.allocAnswer, s.allocTaken) else (true, s)

/-- CREATE's state, in the order of checks of R180 and R209. -/
def create (s : State) : State :=
  if s.created then raise .alreadyCreated s
  else if s.cfgArgs.present = false then s.withStatus statusInvalidArg
  else if s.cfgArgs.reservedFlags ≠ 0 then raise .reservedEncoding s
  else if valid s.params s.cfgArgs = false then s.withStatus statusInvalidArg
  else if (allocate s).1 then (allocate s).2.constructed
  else (allocate s).2.withStatus statusNoMem

/-- CREATE (R180). -/
def execCreate (s : State) : Host.Outcome State Fault Refusal := .next (create s)

/-- RESET (R185). -/
def execReset (s : State) : Host.Outcome State Fault Refusal :=
  .next (if s.created then s.packetStart else raise .notCreated s)

/-- The registers DESTROY leaves unspecified take a free value (R190). -/
def State.unspecifiedRegs (u : InstanceRegs) (s : State) : State :=
  { s with
    cfg := u.cfg, cutoutEnabled := u.cutoutEnabled, sym := u.sym, phase := u.phase, progress := u.progress,
    byteIndex := u.byteIndex, bitCursor := u.bitCursor, freeTaken := s.freeTaken + 1 }

/-- The end of the instance (R190). -/
def State.destroyed (s : State) : State :=
  { s.unspecifiedRegs (Config.unspecified s.freeTaken) with created := false, pktLatch := none }

/-- DESTROY (R190). -/
def execDestroy (s : State) : Host.Outcome State Fault Refusal :=
  .next (if s.created then s.destroyed else raise .notCreated s)

end Sys2Proof.Machine
end

