-- ==== Sys2Proof/Machine/Dispatch.lean ====
section
/-! DEFINITION. One arm per operation. -/

namespace Sys2Proof.Machine

def exec (i : Instr) (s : State) : Host.Outcome State Fault Refusal :=
  match i with
  | .create => Sys2Proof.Machine.execCreate s
  | .reset => Sys2Proof.Machine.execReset s
  | .encode => Sys2Proof.Machine.execEncode s
  | .destroy => Sys2Proof.Machine.execDestroy s
  | .emitBit sel => Sys2Proof.Machine.execEmitBit sel s
  | .emitByte b => Sys2Proof.Machine.execEmitByte b s
  | .phCutout => Sys2Proof.Machine.execPhCutout s
  | .phSyncZero => Sys2Proof.Machine.execPhSyncZero s
  | .phPreamble => Sys2Proof.Machine.execPhPreamble s
  | .phStart => Sys2Proof.Machine.execPhStart s
  | .phData => Sys2Proof.Machine.execPhData s
  | .phEnd => Sys2Proof.Machine.execPhEnd s

end Sys2Proof.Machine
end

