-- ==== Sys2Proof/WellFormed.lean ====
section
/-! DEFINITION. Which operations a port may issue. Operands need no check of their own: every value of `Sel` and of a
byte is legal (R83), and the types hold no others. -/

namespace Sys2Proof

/-- The four host commands (R72). -/
def Instr.hostIssuable : Instr → Bool
  | .create | .reset | .encode | .destroy => true
  | .emitBit _ | .emitByte _ => false
  | .phCutout | .phSyncZero | .phPreamble | .phStart | .phData | .phEnd => false

/-- "The host cannot issue them" (R83): an operation is well formed at exactly one port. -/
def Instr.wellFormedAt (p : Port) (i : Instr) : Bool :=
  match p with
  | .host => i.hostIssuable
  | .sequencer => !i.hostIssuable

end Sys2Proof
end

