-- ==== Sys2Proof/Decode.lean ====
section
/-! DEFINITION. The decoders of the command word (R71 to R73) and of the internal operation word (R83), and the
encoder written from the same tables. -/

namespace Sys2Proof

/-- Why a word spells no operation. -/
inductive DecodeError where
  /-- `RSV`, bits 31:4 of a command word, is nonzero (R71, R73). -/
  | nonzeroRsv
  /-- `OP`, bits 3:0 of a command word, is reserved (R72, R73). -/
  | reservedOp
  /-- An internal operation word that "is never formed" (R83). -/
  | neverFormed
deriving DecidableEq, Repr

/-- `v[hi:lo]` of R10, with `n = hi - lo + 1`. -/
def field (w : Word) (lo n : Nat) : BitVec n := w.extractLsb' lo n

/-- The host opcode map (R72). The whole word is matched: `RSV` must be 0. -/
def decodeHost (w : Word) : Except DecodeError Instr :=
  if field w 4 28 = 0 then
    match field w 0 4 with
    | 1#4 => .ok .create
    | 2#4 => .ok .reset
    | 3#4 => .ok .encode
    | 4#4 => .ok .destroy
    | _ => .error .reservedOp
  else .error .nonzeroRsv

/-- The code of `SEL` (R83). -/
def Sel.code : Sel → BitVec 2
  | .one => 0
  | .zero => 1
  | .endBit => 2
  | .cutout => 3

/-- The symbol a `SEL` code picks (R83); all four codes are used. -/
def Sel.ofCode (c : BitVec 2) : Sel :=
  if c = 0 then .one else if c = 1 then .zero else if c = 2 then .endBit else .cutout

/-- The internal operation words (R83). -/
def decodeInternal (w : Word) : Except DecodeError Instr :=
  match field w 0 4 with
  | 0x8#4 =>
    if field w 6 26 = 0 then .ok (.emitBit (Sel.ofCode (field w 4 2))) else .error .neverFormed
  | 0x9#4 =>
    if field w 16 16 = 0 ∧ field w 4 4 = 0 then .ok (.emitByte (field w 8 8)) else .error .neverFormed
  | 0xA#4 =>
    if field w 7 25 = 0 then
      match field w 4 3 with
      | 0#3 => .ok .phCutout
      | 1#3 => .ok .phSyncZero
      | 2#3 => .ok .phPreamble
      | 3#3 => .ok .phStart
      | 4#3 => .ok .phData
      | 5#3 => .ok .phEnd
      | _ => .error .neverFormed
    else .error .neverFormed
  | _ => .error .neverFormed

/-- What a word spells at the place it comes from: `CMD` knows the four host commands only (R83). -/
def decodeAt : Port → Word → Except DecodeError Instr
  | .host => decodeHost
  | .sequencer => decodeInternal

/-- What a word spells in the whole opcode table. No word spells both a host command and an internal operation:
the internal `OP` values are reserved in `CMD` (R83). -/
def decode (w : Word) : Except DecodeError Instr :=
  match decodeHost w with
  | .ok i => .ok i
  | .error e =>
    match decodeInternal w with
    | .ok i => .ok i
    | .error _ => .error e

/-- The word of an operation, from the tables of R72 and R83. -/
def encode : Instr → Word
  | .create => 0#28 ++ 0x1#4
  | .reset => 0#28 ++ 0x2#4
  | .encode => 0#28 ++ 0x3#4
  | .destroy => 0#28 ++ 0x4#4
  | .emitBit sel => 0#24 ++ 0#2 ++ sel.code ++ 0x8#4
  | .emitByte b => 0#16 ++ b ++ 0#4 ++ 0x9#4
  | .phCutout => 0#25 ++ 0#3 ++ 0xA#4
  | .phSyncZero => 0#25 ++ 1#3 ++ 0xA#4
  | .phPreamble => 0#25 ++ 2#3 ++ 0xA#4
  | .phStart => 0#25 ++ 3#3 ++ 0xA#4
  | .phData => 0#25 ++ 4#3 ++ 0xA#4
  | .phEnd => 0#25 ++ 5#3 ++ 0xA#4

/-- The instruction the decoder reads from a row's word. Every operation of the table is one 32-bit word (R71, R83),
so a value that needs more bits spells nothing. -/
def decodeTableWord (nbits w : Nat) : Option Instr :=
  if nbits ≤ 32 ∧ w < 2 ^ 32 then (decode (BitVec.ofNat 32 w)).toOption else none

end Sys2Proof
end

