-- ==== Sys2Proof/Machine/Fetch.lean ====
section
/-! DEFINITION. How the next operation reaches the sequencer: the host writes the argument registers and then `CMD`
(R70). "There is no instruction fetch" (R64); the host's program is an input of the step (R21) and waits in
`pending`. -/

namespace Sys2Proof.Machine

/-- The host's register writes before an operation runs, and the write of `CMD` itself (R70). An internal word is not
written to `CMD` (R83). -/
def State.load (q : Issue) (s : State) : State :=
  { s with
    cfgArgs := q.cfgArgs.getD s.cfgArgs
    pktArgs := q.pktArgs.getD s.pktArgs
    cmd := match q.port with
      | .host => q.word
      | .sequencer => s.cmd }

/-- What the next step finds. -/
inductive Fetched where
  /-- No command is issued: "Between commands it is idle and keeps all of its state" (R218). -/
  | idle
  /-- An operation, and the state it runs in. -/
  | run (i : Instr) (s : State)
  /-- A command word that "spells no command" (R73), and the state it is refused in. -/
  | reserved (s : State)
  /-- An internal word that "is never formed" (R83). -/
  | neverFormed (w : Word)
deriving DecidableEq, Repr

/-- The fetch: the oldest waiting operation is taken, its register writes are made, and its word is decoded at the
place it comes from. -/
def fetch (s : State) : Fetched :=
  match s.pending with
  | [] => .idle
  | q :: rest =>
    match decodeAt q.port q.word with
    | .ok i => .run i (State.load q { s with pending := rest })
    | .error _ =>
      match q.port with
      | .host => .reserved (State.load q { s with pending := rest })
      | .sequencer => .neverFormed q.word

/-- Where a word of the opcode table is issued: an internal operation's word inside the sequencer, any other in `CMD`
(R83). -/
def portOf (w : Word) : Port :=
  match decodeInternal w with
  | .ok _ => .sequencer
  | .error _ => .host

/-- The packet an internal word runs on: a phase handler runs inside an ENCODE, whose packet has at least one byte
(R51, R142), so where the registers hold none (N = 0) one zero byte is borrowed (DESIGN CHOICE: log entry 9). -/
def borrowedPacket (s : State) : Option PktArgs :=
  if s.pktArgs.len = 0 then some ⟨true, 1, []⟩ else none

/-- The issue that makes the very next step run the word `w`. -/
def issueOfWord (s : State) (w : Word) : Issue where
  port := portOf w
  cfgArgs := none
  pktArgs := match portOf w with
    | .host => none
    | .sequencer => borrowedPacket s
  word := w

end Sys2Proof.Machine
end

