-- ==== Sys2Proof/Machine/Step.lean ====
section
/-! DEFINITION. One step: one operation, run to its end (R20, R70, R210). -/

namespace Sys2Proof.Machine

/-- The step. -/
def step (s : State) : Host.Outcome State Fault Refusal :=
  match fetch s with
  | .idle => .next s
  | .run i t => exec i t
  | .reserved t => .next (raise .reservedEncoding t)
  | .neverFormed w => .refused (.wordNeverFormed w)

/-- `s` with the word `w` issued next. -/
def State.withFetchWord (s : State) (_nbits w : Nat) : State :=
  { s with pending := issueOfWord s (BitVec.ofNat 32 w) :: s.pending }

end Sys2Proof.Machine
end

