-- ==== Sys2Proof/Machine/HostLines.lean ====
section
/-! DEFINITION. The host's textual commands as issues of the command interface (R84), and the two pseudo-instructions
(R85). Nothing of the block depends on this file. -/

namespace Sys2Proof.Machine

/-- The operands of a CREATE line (R84). -/
structure CreateLine where
  preamble : Word
  bit1 : Word
  bit0 : Word
  endBit : Word
  cutout : Word
  level0 : Level
  zerobit : Bool
deriving DecidableEq, Repr

/-- One line of the textual syntax (R84). -/
inductive HostLine where
  | create (c : CreateLine)
  | createNone
  | reset
  | encode (bytes : List Byte)
  | encodeNone (n : Word)
  | destroy
deriving DecidableEq, Repr

/-- The argument registers of a CREATE line; `ARG_FLAGS` holds `level0` in bit 0 and `zerobit` in bit 1 (R74). -/
def CreateLine.args (c : CreateLine) : CfgArgs where
  present := true
  preamble := c.preamble
  bit1 := c.bit1
  bit0 := c.bit0
  endBit := c.endBit
  cutout := c.cutout
  flags := 0#30 ++ BitVec.ofBool c.zerobit ++ c.level0

/-- The register writes and the command word of a line (R72, R84). `ARG_LEN` is a u32 (R75), and the spec does not say
what an ENCODE line of 2^32 or more bytes writes to it: the number of bytes modulo 2^32 (DESIGN CHOICE, unsafe: log
entry 24). -/
def HostLine.issue : HostLine → Issue
  | .create c => ⟨.host, some c.args, none, Sys2Proof.encode .create⟩
  | .createNone => ⟨.host, some ⟨false, 0, 0, 0, 0, 0, 0⟩, none, Sys2Proof.encode .create⟩
  | .reset => ⟨.host, none, none, Sys2Proof.encode .reset⟩
  | .encode bytes =>
    ⟨.host, none, some ⟨true, BitVec.ofNat 32 bytes.length, Memory.ofBytes bytes⟩, Sys2Proof.encode .encode⟩
  | .encodeNone n => ⟨.host, none, some ⟨false, n, []⟩, Sys2Proof.encode .encode⟩
  | .destroy => ⟨.host, none, none, Sys2Proof.encode .destroy⟩

/-- `@room=k`: the next k `SymWrite`s answer true and the one after them false (R84). An ENCODE that completes first
leaves the answers it did not ask for listed. -/
def room (k : Nat) : List Bool := List.replicate k true ++ [false]

/-- `RECONFIG <cfg>` (R85). -/
def reconfig (c : CreateLine) : List HostLine := [.destroy, .create c]

/-- `SEND [<bytes>]` (R85) with the packet already in the argument registers: ENCODE repeated until
`RES_STATE = complete`, at most `n` times. -/
def send : Nat → State → Host.Outcome State Fault Refusal
  | 0, s => .next s
  | n + 1, s =>
    match execEncode s with
    | .next t => if t.resState = stateComplete then .next t else send n t
    | .fault f => .fault f
    | .refused r => .refused r

end Sys2Proof.Machine
end

