-- ==== Sys2Proof/Safety.lean ====
section
/-! DEFINITION. The terms the claims use: the invariants of R36, the symbol stream of a packet cycle (R156), what is
left of it at a suspension (R159), and the reader of R160. -/

namespace Sys2Proof.Machine

/-! ### The environment's answers -/

/-- How many of the next `n` answers are yes before the first no. -/
def Draws.accepts (free : Nat → Bool) : Nat → Draws → Nat
  | 0, _ => 0
  | n + 1, d => if d.answer free then Draws.accepts free n d.rest + 1 else 0

/-- The answers left after `k` are taken. -/
def Draws.dropped (k : Nat) (d : Draws) : Draws := ⟨d.listed.drop k, d.taken + k⟩

/-- How many of the next `n` symbols the buffer accepts before it is full: "the buffer accepts some number k >= 0 of
symbols, then is full, or accepts all" (R55). -/
def State.accepts (n : Nat) (s : State) : Nat := s.symDraws.accepts Config.symWriteAnswer n

/-- The answers left after `n` symbols are offered, the first refused one being the last (R144). -/
def State.drawsAfter (n : Nat) (s : State) : Draws :=
  s.symDraws.dropped (if s.accepts n = n then n else s.accepts n + 1)

/-! ### The stream of a packet cycle -/

/-- `bits(b)`: the eight symbols of a byte, MSB first (R156). -/
def bitsOf (b : Byte) : List Sel := [7, 6, 5, 4, 3, 2, 1, 0].map fun n => selOfBit (b.getLsbD n)

/-- The start bit and the eight data bits of one byte (R156). -/
def byteFrame (b : Byte) : List Sel := .zero :: bitsOf b

/-- The data bytes and the end bit (R156). -/
def dataAndEnd (pkt : List Byte) : List Sel := pkt.flatMap byteFrame ++ [.endBit]

/-- `stream(pkt, first)` (R156), as the symbols' names. -/
def stream (c : Cfg) (cutoutEnabled : Bool) (pkt : List Byte) (first : Bool) : List Sel :=
  (if cutoutEnabled && !first then List.replicate 4 .cutout else []) ++
  ((if c.syncZeroEnabled then [.zero] else []) ++
  (List.replicate c.preambleBits.toNat .one ++ dataAndEnd pkt))

/-- The symbols of the cycle not yet written at `(phase, progress, byte_index, bit_cursor)` (R159). -/
def State.remaining (s : State) (pkt : List Byte) : List Sel :=
  let left (p : Phase) (y : Sel) := List.replicate (need s.cfg s.cutoutEnabled p - s.progress.toNat) y
  let whole (p : Phase) (y : Sel) := List.replicate (need s.cfg s.cutoutEnabled p) y
  match s.phase with
  | .cutout => left .cutout .cutout ++ (whole .syncZero .zero ++ (whole .preamble .one ++ dataAndEnd pkt))
  | .syncZero => left .syncZero .zero ++ (whole .preamble .one ++ dataAndEnd pkt)
  | .preamble => left .preamble .one ++ dataAndEnd pkt
  | .start => left .start .zero ++ (bitsOf (pkt.getD s.byteIndex.toNat 0) ++
      dataAndEnd (pkt.drop (s.byteIndex.toNat + 1)))
  | .data => (bitsOf (pkt.getD s.byteIndex.toNat 0)).drop s.bitCursor.toNat ++
      dataAndEnd (pkt.drop (s.byteIndex.toNat + 1))
  | .endBit => [.endBit]

/-- The Symbols of a list of symbol names. -/
def SymTab.symbols (t : SymTab) (l : List Sel) : List Symbol := l.map t.get

/-- A packet cycle begins: no packet is in progress (R145, R231). -/
def State.atCycleStart (s : State) : Prop := s.created = true ∧ s.pktLatch = none

/-- The cycle begins in SyncZero: the first after CREATE or RESET (R156). -/
def State.isFirst (s : State) : Bool := s.phase == .syncZero

/-- The symbols written by `SEND` (R85) in all: the sum of `RES_WRITTEN` over its ENCODE calls (R157). -/
def sendWritten : Nat → State → Nat
  | 0, _ => 0
  | n + 1, s =>
    match execEncode s with
    | .next t => t.resWritten.toNat + (if t.resState = stateComplete then 0 else sendWritten n t)
    | .fault _ => 0
    | .refused _ => 0

/-- EMIT_BYTE(b) called again until it is COMPLETE, at most `n` times: the sum of the `k` values and the state
(R123); none when it is not complete by then. -/
def emitByteCalls (b : Byte) : Nat → State → Option (Nat × State)
  | 0, _ => none
  | n + 1, s =>
    let r := emitByte b s
    match r.verdict with
    | .complete => some (r.count, r.st)
    | .full => (emitByteCalls b n r.st).map fun q => (r.count + q.1, q.2)

/-! ### The reader of R160 -/

/-- The byte of eight symbols, MSB first: ONE is 1 and ZERO is 0. -/
def readByte (one : Symbol) (l : List Symbol) : Byte :=
  l.foldl (fun b y => (b <<< 1) ||| (if y = one then 1 else 0)) 0

/-- Step 4 of R160: ZERO, so a byte follows; anything else is END and stops. -/
def readBytes (one zero : Symbol) : List Symbol → List Byte
  | y :: b7 :: b6 :: b5 :: b4 :: b3 :: b2 :: b1 :: b0 :: rest =>
    if y = zero then readByte one [b7, b6, b5, b4, b3, b2, b1, b0] :: readBytes one zero rest else []
  | _ => []

/-- The reader of R160: drop the cutout, the sync zero and the preamble, then read the bytes. -/
def readStream (c : Cfg) (cutoutEnabled : Bool) (t : SymTab) (first : Bool) (l : List Symbol) : List Byte :=
  let cut := if cutoutEnabled && !first then 4 else 0
  let sync := if c.syncZeroEnabled then 1 else 0
  readBytes t.one t.zero (((l.drop cut).drop sync).drop c.preambleBits.toNat)

/-! ### Invariants -/

/-- A stored duration is in its window. -/
def durInWindow (lo hi : Nat) (d : Dur) : Prop := lo ≤ d.toNat ∧ d.toNat ≤ hi

/-- The legal values of CFG (R28). -/
structure Cfg.Legal (p : Params) (c : Cfg) : Prop where
  preamble : p.preMin ≤ c.preambleBits.toNat ∧ c.preambleBits.toNat ≤ p.preMax
  bit1 : durInWindow p.b1Min p.b1Max c.bit1Duration
  bit0 : durInWindow p.b0Min p.b0Max c.bit0Duration
  endBit : c.endBitDuration.toNat ≤ p.b1Max
  cutout : c.bidiCutoutDuration = 0 ∨ durInWindow p.cutMin p.cutMax c.bidiCutoutDuration

/-- While an instance exists: CFG is legal, and `cutout_enabled` and SYM are those of CFG (R28, R29, R31). -/
structure State.ConfigInv (s : State) : Prop where
  legal : s.cfg.Legal s.params
  flag : s.cutoutEnabled = s.cfg.cutoutFlag
  table : s.sym = derive s.params.endSymbolForm s.cfg

/-- Where the block stands in the packet (R36). -/
structure State.PositionInv (s : State) : Prop where
  progress_le : s.progress.toNat < need s.cfg s.cutoutEnabled s.phase ∨ s.progress = 0
  progress_zero : s.phase = .start ∨ s.phase = .data ∨ s.phase = .endBit → s.progress = 0
  cursor_zero : s.phase ≠ .data → s.bitCursor = 0
  index_zero : s.phase = .cutout ∨ s.phase = .syncZero ∨ s.phase = .preamble → s.byteIndex = 0
  unlatched : s.pktLatch = none → (s.phase = .cutout ∨ s.phase = .syncZero) ∧ s.progress = 0
  latched : ∀ pkt, s.pktLatch = some pkt →
    (1 ≤ pkt.length ∧ pkt.length ≤ s.params.maxPacketLen) ∧
    (s.phase = .start ∨ s.phase = .data → s.byteIndex.toNat < pkt.length) ∧
    (s.phase = .endBit → s.byteIndex.toNat = pkt.length)

/-- The invariants of the block between commands (R36, with R28 and R37's row of `pkt_latch`). -/
structure State.Inv (s : State) : Prop where
  params : s.params.Legal
  config : s.created = true → s.ConfigInv
  position : s.created = true → s.PositionInv
  destroyed : s.created = false → s.pktLatch = none

/-- Every waiting operation is the host's: the internal words "exist only inside the sequencer" (R83). -/
def State.HostOnly (s : State) : Prop := ∀ q ∈ s.pending, q.port = .host

/-- Every packet space the host has given is in the canonical form. -/
def State.PacketsWf (s : State) : Prop :=
  s.pktArgs.pkt.wf = true ∧ ∀ q ∈ s.pending, ∀ a, q.pktArgs = some a → a.pkt.wf = true

/-- ENCODE passes the checks of R142: it is not refused. -/
def State.EncodeAccepted (s : State) : Prop :=
  s.created = true ∧ s.pktArgs.present = true ∧
  (1 ≤ s.packetLen ∧ s.packetLen ≤ s.params.maxPacketLen) ∧
  (s.pktLatch = none ∨ s.pktLatch = some s.packet)

end Sys2Proof.Machine
end

