-- ==== Sys2Proof/Certificates/Slice0/Obligations.lean ====
section
/-! DEFINITION. The statements for the provers. Each docstring names the rule of spec/ it formalises. A statement
about a free value (an answer of the environment, a register after DESTROY) holds for every value of it. -/

open Sys2Proof Sys2Proof.Machine

/-! ### Encoding -/

/-- The words written out from the tables of R72 and R83 decode to the operations they stand for. -/
def Obligations.HandWrittenWordsDecode : Prop :=
  decodeHost 0x00000001#32 = .ok .create ∧ decodeHost 0x00000002#32 = .ok .reset ∧
  decodeHost 0x00000003#32 = .ok .encode ∧ decodeHost 0x00000004#32 = .ok .destroy ∧
  decodeInternal 0x00000008#32 = .ok (.emitBit .one) ∧ decodeInternal 0x00000038#32 = .ok (.emitBit .cutout) ∧
  decodeInternal 0x0000A509#32 = .ok (.emitByte 0xA5#8) ∧ decodeInternal 0x0000000A#32 = .ok .phCutout ∧
  decodeInternal 0x0000005A#32 = .ok .phEnd ∧ decodeHost 0x00000013#32 = .error .nonzeroRsv ∧
  decodeHost 0x00000008#32 = .error .reservedOp ∧ decodeInternal 0x0000006A#32 = .error .neverFormed

/-- Every operation, with every operand, is read back from its word, at the port that may issue it and in the whole
table (R72, R83). -/
def Obligations.DecodeOfEncodeIsTheOperation : Prop :=
  ∀ i : Instr, decode (encode i) = .ok i ∧ ∀ p, i.wellFormedAt p = true → decodeAt p (encode i) = .ok i

/-- A word that a port decodes is the word of the operation, and the operation is one that port may issue: the
decoder matches the whole word (R72, R83). -/
def Obligations.DecodedWordIsTheWordOfTheOperation : Prop :=
  ∀ (p : Port) (w : Word) (i : Instr), decodeAt p w = .ok i → encode i = w ∧ i.wellFormedAt p = true

/-- R72: the host opcode map matches the whole word: each command has the one word `zext_32(OP)`, and every other
word is reserved. R83: no internal word is a command word. -/
def Obligations.CommandRegisterTakesFourWords : Prop :=
  (∀ w : Word,
    (decodeHost w = .ok .create ↔ w = 0x00000001#32) ∧ (decodeHost w = .ok .reset ↔ w = 0x00000002#32) ∧
    (decodeHost w = .ok .encode ↔ w = 0x00000003#32) ∧ (decodeHost w = .ok .destroy ↔ w = 0x00000004#32) ∧
    ((∃ i, decodeHost w = .ok i) ↔ w = 1 ∨ w = 2 ∨ w = 3 ∨ w = 4)) ∧
  ∀ (w : Word) (i : Instr), decodeInternal w = .ok i → ¬ ∃ j, decodeHost w = .ok j

/-- R77, R78: the symbol word's fields are the Symbol's, and a Symbol and its word determine each other. -/
def Obligations.SymbolWordLayout : Prop :=
  (∀ y : Symbol, y.word.extractLsb' 0 15 = y.d0 ∧ y.word.extractLsb' 15 1 = y.l0 ∧
    y.word.extractLsb' 16 15 = y.d1 ∧ y.word.extractLsb' 31 1 = y.l1 ∧ Symbol.ofWord y.word = y) ∧
  ∀ w : Word, (Symbol.ofWord w).word = w

/-! ### The step -/

/-- The oldest waiting word is decoded at its port, the argument registers written before it and (for a host command)
`CMD` hold what the host wrote, and the step is `exec` of the operation in that state. For a host command this is R70
and R210. The list of waiting words is the model's (log entry 8, DESIGN CHOICE), and so is a word at the sequencer's
port run as a step of its own, which leaves `CMD` alone (log entry 9, DESIGN CHOICE). -/
def Obligations.StepRunsTheDecodedOperation : Prop :=
  ∀ (s : State) (q : Issue) (rest : List Issue) (i : Instr),
    s.pending = q :: rest → decodeAt q.port q.word = .ok i →
    step s = exec i
      { s with
        pending := rest
        cfgArgs := q.cfgArgs.getD s.cfgArgs
        pktArgs := q.pktArgs.getD s.pktArgs
        cmd := if q.port = .host then q.word else s.cmd }

/-- The word placed by `withFetchWord` runs in the very next step, for every operation; what waited before still
waits. -/
def Obligations.FetchWordRunsNext : Prop :=
  ∀ (s : State) (i : Instr),
    step (s.withFetchWord 32 (encode i).toNat) = exec i (State.load (issueOfWord s (encode i)) s)

/-- R218: between commands the block is idle and keeps all of its state. -/
def Obligations.IdleStepKeepsAllState : Prop :=
  ∀ s : State, s.pending = [] → step s = .next s

/-- R73: a command word whose `OP` is reserved, or whose `RSV` is nonzero, is refused in every state: the mark is set,
the reason is RESERVED_ENCODING, and nothing else of the block changes. -/
def Obligations.ReservedCommandWordIsRefused : Prop :=
  ∀ (s : State) (q : Issue) (rest : List Issue), s.pending = q :: rest → q.port = .host →
    (q.word.extractLsb' 4 28 ≠ 0 ∨ q.word.extractLsb' 0 4 = 0 ∨ 5 ≤ (q.word.extractLsb' 0 4).toNat) →
    step s = .next
      { s with
        pending := rest
        cfgArgs := q.cfgArgs.getD s.cfgArgs
        pktArgs := q.pktArgs.getD s.pktArgs
        cmd := q.word
        refused := true
        refusedReason := some .reservedEncoding }

/-- R83: the host cannot issue an internal operation: its word, written to `CMD`, is refused. -/
def Obligations.InternalWordInCommandRegisterIsRefused : Prop :=
  ∀ (s : State) (q : Issue) (rest : List Issue) (i : Instr), s.pending = q :: rest → q.port = .host →
    i.hostIssuable = false → q.word = encode i →
    ∃ t, step s = .next t ∧ t.refused = true ∧ t.refusedReason = some .reservedEncoding ∧
      t.out = s.out ∧ t.phase = s.phase ∧ t.progress = s.progress ∧ t.byteIndex = s.byteIndex ∧
      t.bitCursor = s.bitCursor ∧ t.created = s.created

/-! ### Lifecycle -/

/-- R205: CREATE requires `created = 0`; RESET, ENCODE and DESTROY require `created = 1`. Otherwise the refusal mark
and its reason change and nothing else does. -/
def Obligations.LifecycleMisuseIsRefused : Prop :=
  ∀ s : State,
    (s.created = true →
      exec .create s = .next { s with refused := true, refusedReason := some .alreadyCreated }) ∧
    (s.created = false → ∀ i ∈ [Instr.reset, .encode, .destroy],
      exec i s = .next { s with refused := true, refusedReason := some .notCreated })

/-- R101: an absent configuration is INVALID_ARG, whatever the other argument registers hold. -/
def Obligations.AbsentConfigurationIsInvalidArg : Prop :=
  ∀ s : State, s.created = false → s.cfgArgs.present = false →
    exec .create s = .next { s with resStatus := 1 }

/-- R107: reserved flag bits refuse a CREATE whose configuration is present, before any field check, and are not looked
at when it is absent; the two flags themselves are legal at both values. -/
def Obligations.ReservedFlagsRefuseCreate : Prop :=
  (∀ s : State, s.created = false → s.cfgArgs.present = true → s.cfgArgs.flags.extractLsb' 2 30 ≠ 0 →
    exec .create s = .next { s with refused := true, refusedReason := some .reservedEncoding }) ∧
  (∀ s : State, s.created = false → s.cfgArgs.present = false → s.cfgArgs.flags.extractLsb' 2 30 ≠ 0 →
    exec .create s = .next { s with resStatus := 1 }) ∧
  ∀ (p : Params) (a : CfgArgs) (f : Word), valid p { a with flags := f } = valid p a

/-- R100 to R106, R108: `valid(args)` is true exactly when every named check passes, on the full 32-bit values. -/
def Obligations.ValidIsTheNamedChecks : Prop :=
  ∀ (p : Params) (a : CfgArgs),
    valid p a = true ↔
      a.present = true ∧
      (p.preMin ≤ a.preamble.toNat ∧ a.preamble.toNat ≤ p.preMax) ∧
      (a.cutout.toNat = 0 ∨ p.cutMin ≤ a.cutout.toNat ∧ a.cutout.toNat ≤ p.cutMax) ∧
      (p.b1Min ≤ a.bit1.toNat ∧ a.bit1.toNat ≤ p.b1Max) ∧
      (p.b0Min ≤ a.bit0.toNat ∧ a.bit0.toNat ≤ p.b0Max) ∧
      a.endBit.toNat ≤ p.b1Max

/-- R182, R201: a configuration that fails a check is INVALID_ARG whatever the allocation would have answered, and
every register except `RES_STATUS` is kept. -/
def Obligations.InvalidConfigurationIsInvalidArg : Prop :=
  ∀ s : State, s.created = false → s.cfgArgs.present = true → s.cfgArgs.flags.extractLsb' 2 30 = 0 →
    valid s.params s.cfgArgs = false → exec .create s = .next { s with resStatus := 1 }

/-- R181, R202: a valid configuration reports NO_MEM when `ALLOC_MAY_FAIL` is true and the allocation fails, and
nothing but `RES_STATUS` changes (the answer is used up). -/
def Obligations.FailedAllocationIsNoMem : Prop :=
  ∀ s : State, s.created = false → s.cfgArgs.flags.extractLsb' 2 30 = 0 → valid s.params s.cfgArgs = true →
    s.params.allocMayFail = true → s.allocAnswer = false →
    exec .create s = .next { s with resStatus := 2, allocDraws := s.allocDraws.rest }

/-- R180: CREATE of a valid configuration, allocated, stores the arguments' low bits, derives `cutout_enabled` and
SYM, sets the start of a packet in SyncZero, and reports OK. With `ALLOC_MAY_FAIL` false it always does (R181). -/
def Obligations.CreateConstructsTheEncoder : Prop :=
  ∀ s : State, s.created = false → s.cfgArgs.flags.extractLsb' 2 30 = 0 → valid s.params s.cfgArgs = true →
    (s.params.allocMayFail = false ∨ s.allocAnswer = true) →
    let c : Cfg :=
      { preambleBits := s.cfgArgs.preamble.extractLsb' 0 8
        bit1Duration := s.cfgArgs.bit1.extractLsb' 0 15
        bit0Duration := s.cfgArgs.bit0.extractLsb' 0 15
        endBitDuration := s.cfgArgs.endBit.extractLsb' 0 15
        bidiCutoutDuration := s.cfgArgs.cutout.extractLsb' 0 15
        polarityLevel0 := s.cfgArgs.flags.extractLsb' 0 1
        syncZeroEnabled := s.cfgArgs.flags.getLsbD 1 }
    exec .create s = .next
      { s with
        created := true
        cfg := c
        cutoutEnabled := decide (c.bidiCutoutDuration ≠ 0)
        sym := derive s.params.endSymbolForm c
        phase := .syncZero
        progress := 0
        byteIndex := 0
        bitCursor := 0
        pktLatch := none
        resStatus := 0
        allocDraws := if s.params.allocMayFail then s.allocDraws.rest else s.allocDraws }

/-- R76, R108: validation bounds every value below its field's width, so what CFG stores is the argument, exactly. -/
def Obligations.StoredConfigurationIsExact : Prop :=
  ∀ (p : Params) (a : CfgArgs), p.Legal → valid p a = true →
    a.toCfg.preambleBits.toNat = a.preamble.toNat ∧
    a.toCfg.bit1Duration.toNat = a.bit1.toNat ∧
    a.toCfg.bit0Duration.toNat = a.bit0.toNat ∧
    a.toCfg.endBitDuration.toNat = a.endBit.toNat ∧
    a.toCfg.bidiCutoutDuration.toNat = a.cutout.toNat ∧
    (a.toCfg.cutoutFlag = true ↔ a.cutout.toNat ≠ 0)

/-- R109 to R113: the four derived symbols; the two forms of SYM.END agree, and equal SYM.ONE, when the end duration
is 0. -/
def Obligations.DerivedSymbols : Prop :=
  ∀ c : Cfg,
    let l := c.polarityLevel0
    let nl : Level := if l = 0 then 1 else 0
    let e := if c.endBitDuration = 0 then c.bit1Duration else c.endBitDuration
    (∀ f, (derive f c).one = ⟨c.bit1Duration, l, c.bit1Duration, nl⟩ ∧
      (derive f c).zero = ⟨c.bit0Duration, l, c.bit0Duration, nl⟩ ∧
      (derive f c).cutout = ⟨c.bidiCutoutDuration, l, c.bidiCutoutDuration, nl⟩) ∧
    (derive .bothHalves c).endBit = ⟨e, l, e, nl⟩ ∧
    (derive .secondHalfOnly c).endBit = ⟨c.bit1Duration, l, e, nl⟩ ∧
    (c.endBitDuration = 0 → ∀ f, (derive f c).endBit = (derive f c).one)

/-- R185: RESET returns to the start of a packet in SyncZero and changes nothing else; it is refused while no
instance exists. -/
def Obligations.ResetReturnsToPacketStart : Prop :=
  decodeHost 0x00000002#32 = .ok .reset ∧
  ∀ s : State,
    (s.created = true →
      exec .reset s = .next
        { s with phase := .syncZero, progress := 0, byteIndex := 0, bitCursor := 0, pktLatch := none }) ∧
    (s.created = false →
      exec .reset s = .next { s with refused := true, refusedReason := some .notCreated })

/-- DESTROY clears `created` and the latch, and CFG, SYM and the position become unspecified (R190), `cutout_enabled`
too (R37); the result registers (R33, R37), the refusal mark (R37) and everything else keep their values. It is refused
while no instance exists. That the unspecified registers take a free value `u` and that `freeTaken` counts it is the
model's choice (log entry 7). -/
def Obligations.DestroyEndsTheInstance : Prop :=
  decodeHost 0x00000004#32 = .ok .destroy ∧
  ∀ s : State,
    (s.created = true → ∃ u : InstanceRegs,
      exec .destroy s = .next
        { s with
          created := false, pktLatch := none, cfg := u.cfg, cutoutEnabled := u.cutoutEnabled, sym := u.sym,
          phase := u.phase, progress := u.progress, byteIndex := u.byteIndex, bitCursor := u.bitCursor,
          freeTaken := s.freeTaken + 1 }) ∧
    (s.created = false →
      exec .destroy s = .next { s with refused := true, refusedReason := some .notCreated })

/-! ### The emitters -/

/-- R120: EMIT_BIT appends the picked symbol and returns (1, COMPLETE), or appends nothing and returns (0, FULL); no
register of the block changes. Its word holds `SEL` in bits 5:4. -/
def Obligations.EmitBitWritesOneSymbolOrNothing : Prop :=
  (decodeInternal 0x00000008#32 = .ok (.emitBit .one) ∧ decodeInternal 0x00000018#32 = .ok (.emitBit .zero) ∧
    decodeInternal 0x00000028#32 = .ok (.emitBit .endBit) ∧
    decodeInternal 0x00000038#32 = .ok (.emitBit .cutout)) ∧
  ∀ (s : State) (sel : Sel),
    let y := match sel with
      | .one => s.sym.one
      | .zero => s.sym.zero
      | .endBit => s.sym.endBit
      | .cutout => s.sym.cutout
    exec (.emitBit sel) s = .next
      (if s.symAnswer then
        { s with
          out := s.out ++ [y]
          symDraws := s.symDraws.rest
          opReturn := some (.emit 1 .complete) }
      else { s with symDraws := s.symDraws.rest, opReturn := some (.emit 0 .full) })

/-- R122: EMIT_BYTE writes the unsent bits, most significant first, until the buffer is full; `bit_cursor` counts them
and is 0 again when the byte is finished. Nothing else changes. Its word holds the byte in bits 15:8. -/
def Obligations.EmitByteWritesTheUnsentBits : Prop :=
  (∀ b : Byte, decodeInternal (0x0000#16 ++ b ++ 0x09#8) = .ok (.emitByte b)) ∧
  ∀ (s : State) (b : Byte),
    let n := 8 - s.bitCursor.toNat
    let k := s.accepts n
    exec (.emitByte b) s = .next
      { s with
        out := s.out ++ (List.range k).map fun j =>
          if b.getLsbD (7 - (s.bitCursor.toNat + j)) then s.sym.one else s.sym.zero
        symDraws := s.drawsAfter n
        bitCursor := if k = n then 0 else BitVec.ofNat 3 (s.bitCursor.toNat + k)
        opReturn := some (.emit k (if k = n then .complete else .full)) }

/-- R123: over all the calls for one byte the `k` values add up to exactly 8, and the calls write the byte's eight
symbols once each, in order. -/
def Obligations.EmitByteCallsAddUpToEight : Prop :=
  ∀ (b : Byte) (n k : Nat) (s t : State), s.bitCursor = 0 → emitByteCalls b n s = some (k, t) →
    k = 8 ∧ t.bitCursor = 0 ∧ t.out = s.out ++ s.sym.symbols (bitsOf b)

/-! ### The phase handlers -/

/-- R150: PH_CUTOUT writes the cutout symbols still missing of 4 when enabled, none when disabled; it keeps its place
when the buffer is full and moves to SyncZero when they are written. Nothing else changes. -/
def Obligations.CutoutPhase : Prop :=
  decodeInternal 0x0000000A#32 = .ok .phCutout ∧
  ∀ s : State,
    let n := (if s.cutoutEnabled then 4 else 0) - s.progress.toNat
    let k := s.accepts n
    exec .phCutout s = .next
      { s with
        out := s.out ++ List.replicate k s.sym.cutout
        symDraws := s.drawsAfter n
        phase := if k = n then .syncZero else s.phase
        progress := if k = n then 0 else s.progress + BitVec.ofNat 8 k
        opReturn := some (.phase k (if k = n then .next else .full)) }

/-- R151: PH_SYNCZERO writes one zero symbol when enabled, none when disabled, and moves to Preamble. -/
def Obligations.SyncZeroPhase : Prop :=
  decodeInternal 0x0000001A#32 = .ok .phSyncZero ∧
  ∀ s : State,
    let n := (if s.cfg.syncZeroEnabled then 1 else 0) - s.progress.toNat
    let k := s.accepts n
    exec .phSyncZero s = .next
      { s with
        out := s.out ++ List.replicate k s.sym.zero
        symDraws := s.drawsAfter n
        phase := if k = n then .preamble else s.phase
        progress := if k = n then 0 else s.progress + BitVec.ofNat 8 k
        opReturn := some (.phase k (if k = n then .next else .full)) }

/-- R152: PH_PREAMBLE writes the one symbols still missing of `CFG.preamble_bits`; it may suspend at any of them and
moves to Start when they are written. -/
def Obligations.PreamblePhase : Prop :=
  decodeInternal 0x0000002A#32 = .ok .phPreamble ∧
  ∀ s : State,
    let n := s.cfg.preambleBits.toNat - s.progress.toNat
    let k := s.accepts n
    exec .phPreamble s = .next
      { s with
        out := s.out ++ List.replicate k s.sym.one
        symDraws := s.drawsAfter n
        phase := if k = n then .start else s.phase
        progress := if k = n then 0 else s.progress + BitVec.ofNat 8 k
        opReturn := some (.phase k (if k = n then .next else .full)) }

/-- R153: PH_START writes one zero symbol and moves to Data; `byte_index` is not changed. -/
def Obligations.StartPhase : Prop :=
  decodeInternal 0x0000003A#32 = .ok .phStart ∧
  ∀ s : State,
    let n := 1 - s.progress.toNat
    let k := s.accepts n
    exec .phStart s = .next
      { s with
        out := s.out ++ List.replicate k s.sym.zero
        symDraws := s.drawsAfter n
        phase := if k = n then .data else s.phase
        progress := if k = n then 0 else s.progress + BitVec.ofNat 8 k
        opReturn := some (.phase k (if k = n then .next else .full)) }

/-- R154: PH_DATA writes the unsent bits of byte `byte_index`; when they are written `byte_index` advances and the
next phase is End after the last byte, Start after any other. -/
def Obligations.DataPhase : Prop :=
  decodeInternal 0x0000004A#32 = .ok .phData ∧
  ∀ s : State, s.byteIndex.toNat < s.pktArgs.len.toNat →
    let b := Memory.read s.pktArgs.pkt s.byteIndex.toNat
    let n := 8 - s.bitCursor.toNat
    let k := s.accepts n
    exec .phData s = .next
      { s with
        out := s.out ++ s.sym.symbols (((bitsOf b).drop s.bitCursor.toNat).take k)
        symDraws := s.drawsAfter n
        bitCursor := if k = n then 0 else BitVec.ofNat 3 (s.bitCursor.toNat + k)
        byteIndex := if k = n then s.byteIndex + 1 else s.byteIndex
        phase := if k = n then
            (if s.byteIndex.toNat + 1 = s.pktArgs.len.toNat then .endBit else .start) else s.phase
        progress := if k = n then 0 else s.progress
        opReturn := some (.phase k (if k = n then .next else .full)) }

/-- R52: `PktRead` has no byte beyond the packet: PH_DATA stops there and only there. -/
def Obligations.DataPhaseStopsOnlyBeyondThePacket : Prop :=
  ∀ s : State,
    (∃ f, exec .phData s = .fault f) ↔ s.pktArgs.len.toNat ≤ s.byteIndex.toNat

/-- R155: PH_END writes the end symbol and is DONE, with the phase back at Cutout, or writes nothing and keeps its
place. -/
def Obligations.EndPhase : Prop :=
  decodeInternal 0x0000005A#32 = .ok .phEnd ∧
  ∀ s : State,
    exec .phEnd s = .next
      (if s.symAnswer then
        { s with
          out := s.out ++ [s.sym.endBit]
          symDraws := s.symDraws.rest
          phase := .cutout
          progress := 0
          byteIndex := 0
          opReturn := some (.phase 1 .done) }
      else { s with symDraws := s.symDraws.rest, opReturn := some (.phase 0 .full) })

/-- R23: a completed phase moves to its successor, a full one keeps its place, and only End is done, back at
Cutout. -/
def Obligations.PhaseSuccessors : Prop :=
  ∀ (s : State) (r : PhaseRet), dispatch s = .ok r →
    match r.verdict with
    | .full => r.st.phase = s.phase
    | .done => s.phase = .endBit ∧ r.st.phase = .cutout
    | .next =>
      match s.phase with
      | .cutout => r.st.phase = .syncZero
      | .syncZero => r.st.phase = .preamble
      | .preamble => r.st.phase = .start
      | .start => r.st.phase = .data
      | .data => r.st.phase = .endBit ∨ r.st.phase = .start
      | .endBit => False

/-! ### ENCODE -/

/-- R142: the four checks of ENCODE's arguments, in this order; the first that holds sets the refusal mark and its
reason, and nothing else changes. -/
def Obligations.EncodeChecksItsArgumentsInOrder : Prop :=
  ∀ s : State,
    (s.created = false →
      exec .encode s = .next { s with refused := true, refusedReason := some .notCreated }) ∧
    (s.created = true → s.pktArgs.present = false →
      exec .encode s = .next { s with refused := true, refusedReason := some .noPacket }) ∧
    (s.created = true → s.pktArgs.present = true →
      (s.pktArgs.len.toNat = 0 ∨ s.params.maxPacketLen < s.pktArgs.len.toNat) →
      exec .encode s = .next { s with refused := true, refusedReason := some .badLength }) ∧
    (s.created = true → s.pktArgs.present = true →
      (1 ≤ s.pktArgs.len.toNat ∧ s.pktArgs.len.toNat ≤ s.params.maxPacketLen) →
      s.pktLatch ≠ none → s.pktLatch ≠ some s.packet →
      exec .encode s = .next { s with refused := true, refusedReason := some .packetChanged })

/-- R143, R159: an accepted ENCODE writes exactly the first `k` of the cycle's remaining symbols, `k` being how many
the buffer accepts before it is full, reports `k`, and stops at the first refusal. It is complete when none remain;
otherwise the stored position has exactly the others remaining. Nothing else changes. -/
def Obligations.EncodeWritesTheNextSymbols : Prop :=
  ∀ s : State, s.Inv → s.EncodeAccepted →
    let rem := s.remaining s.packet
    let k := s.accepts rem.length
    ∃ t, exec .encode s = .next t ∧
      t.out = s.out ++ s.sym.symbols (rem.take k) ∧
      t.symDraws = s.drawsAfter rem.length ∧
      t.resWritten.toNat = k ∧
      (k = rem.length → t.resState = 1 ∧ t.phase = .cutout ∧ t.progress = 0 ∧ t.byteIndex = 0 ∧
        t.bitCursor = 0 ∧ t.pktLatch = none) ∧
      (k ≠ rem.length → t.resState = 2 ∧ t.pktLatch = some s.packet ∧ t.remaining s.packet = rem.drop k) ∧
      t = { s with
        phase := t.phase, progress := t.progress, byteIndex := t.byteIndex, bitCursor := t.bitCursor,
        out := t.out, symDraws := t.symDraws, pktLatch := t.pktLatch, resWritten := t.resWritten,
        resState := t.resState }

/-- In every state, reachable or not, ENCODE changes only the position, the latch, its two result registers, the
refusal mark, the output stream and the answers used; every byte of the packet space reads as before (R140, R142). -/
def Obligations.EncodeFrame : Prop :=
  ∀ s t : State, exec .encode s = .next t →
    t = { s with
      phase := t.phase, progress := t.progress, byteIndex := t.byteIndex, bitCursor := t.bitCursor,
      out := t.out, symDraws := t.symDraws, pktLatch := t.pktLatch, resWritten := t.resWritten,
      resState := t.resState, refused := t.refused, refusedReason := t.refusedReason } ∧
    ∀ a, Memory.read t.pktArgs.pkt a = Memory.read s.pktArgs.pkt a

/-- R146: the only outcomes of an ENCODE that is not refused are buffer_full and complete. -/
def Obligations.EncodeReportsCompleteOrBufferFull : Prop :=
  ∀ s t : State, s.EncodeAccepted → exec .encode s = .next t → t.resState = 1 ∨ t.resState = 2

/-- R145: ENCODE reports complete only when the end symbol was the last written, and then the phase is Cutout and the
latch is clear. -/
def Obligations.CompleteMeansTheEndSymbolWasWritten : Prop :=
  ∀ s t : State, s.EncodeAccepted → exec .encode s = .next t → t.resState = 1 →
    t.out.getLast? = some s.sym.endBit ∧ t.phase = .cutout ∧ t.progress = 0 ∧ t.byteIndex = 0 ∧ t.pktLatch = none

/-- R144: within one ENCODE at most one `SymWrite` is refused, and that one is the last: the answers to all symbols
written are yes, and a buffer_full, and only that, takes one more, which is no. -/
def Obligations.AtMostOneSymWriteIsRefused : Prop :=
  ∀ s t : State, s.EncodeAccepted → exec .encode s = .next t →
    ∃ ys, t.out = s.out ++ ys ∧ s.accepts ys.length = ys.length ∧
      (t.resState = 1 ∧ t.symDraws = s.symDraws.dropped ys.length ∨
        t.resState = 2 ∧ t.symDraws = s.symDraws.dropped (ys.length + 1) ∧ s.accepts (ys.length + 1) = ys.length)

/-- R148: every ENCODE that is not refused returns, after at most need(Cutout) + need(SyncZero) + need(Preamble) +
9N + 1 + 1 calls of `SymWrite`. -/
def Obligations.EncodeReturnsWithinItsBound : Prop :=
  ∀ s : State, s.Inv → s.EncodeAccepted →
    ∃ t, exec .encode s = .next t ∧
      t.symDraws.taken ≤ s.symDraws.taken + (need s.cfg s.cutoutEnabled .cutout +
        need s.cfg s.cutoutEnabled .syncZero + need s.cfg s.cutoutEnabled .preamble + 9 * s.packetLen + 1 + 1)

/-- In every state, reachable or not, the dispatch loop ends by itself: ENCODE never reaches the model's bound on it
(R148). -/
def Obligations.EncodeNeverReachesDispatchBound : Prop :=
  ∀ s : State, exec .encode s ≠ .fault .dispatchBound

/-- R156: at the start of a cycle what remains is the whole stream: cutout unless it is the first cycle after CREATE
or RESET, sync zero, preamble, a start bit and eight bits for every byte, end. -/
def Obligations.CycleStartsWithTheWholeStream : Prop :=
  ∀ (s : State) (pkt : List Byte), s.Inv → s.atCycleStart →
    s.remaining pkt = stream s.cfg s.cutoutEnabled pkt s.isFirst

/-- R157: the number of symbols of a cycle. -/
def Obligations.SymbolsOfACycle : Prop :=
  ∀ (c : Cfg) (cut : Bool) (pkt : List Byte) (first : Bool),
    (stream c cut pkt first).length =
      (if cut = true ∧ first = false then 4 else 0) + (if c.syncZeroEnabled then 1 else 0) +
        c.preambleBits.toNat + 9 * pkt.length + 1

/-- R156, R157, R158: whatever the buffer answers, the ENCODE calls of a cycle that completes write together exactly
the stream of the packet, and their `RES_WRITTEN` add up to its length. -/
def Obligations.ChunkingIsTransparent : Prop :=
  ∀ (n : Nat) (s t : State), s.Inv → s.EncodeAccepted → s.atCycleStart → 0 < n →
    send n s = .next t → t.resState = 1 →
    t.out = s.out ++ s.sym.symbols (stream s.cfg s.cutoutEnabled s.packet s.isFirst) ∧
    sendWritten n s = (stream s.cfg s.cutoutEnabled s.packet s.isFirst).length

/-- R160: under `B1_MAX < B0_MIN` the reader recovers the packet from its stream. -/
def Obligations.StreamReadsBackThePacket : Prop :=
  ∀ (p : Params) (c : Cfg) (f : EndSymbolForm) (cut first : Bool) (pkt : List Byte),
    c.Legal p → p.b1Max < p.b0Min →
    (derive f c).one ≠ (derive f c).zero ∧ (derive f c).endBit ≠ (derive f c).zero ∧
    readStream c cut (derive f c) first ((derive f c).symbols (stream c cut pkt first)) = pkt

/-- R239, R234: after RESET the next packet has no cutout, whatever the configuration. -/
def Obligations.NoCutoutAfterReset : Prop :=
  ∀ (s t : State) (pkt : List Byte), s.created = true → exec .reset s = .next t →
    t.remaining pkt = stream s.cfg s.cutoutEnabled pkt true ∧ Sel.cutout ∉ t.remaining pkt

/-- R145: after complete the next packet's stream begins with its cutout, when that is enabled. -/
def Obligations.CutoutPrecedesLaterPackets : Prop :=
  ∀ (s t : State) (pkt : List Byte), s.Inv → s.EncodeAccepted → exec .encode s = .next t →
    t.resState = 1 → t.remaining pkt = stream s.cfg s.cutoutEnabled pkt false

/-! ### The whole machine -/

/-- At power-on `created = 0`, `refused = false` and `pkt_latch = none` (R230, R37), and the output stream is empty,
since no ENCODE has written a symbol (R60). That no operation waits in `pending` is the model's choice (log entries 1
and 8). Nothing is stated about the values log entry 1 chooses for the block's registers. -/
def Obligations.PowerOnState : Prop :=
  State.reset.created = false ∧ State.reset.refused = false ∧ State.reset.pktLatch = none ∧
  State.reset.out = [] ∧ State.reset.pending = []

/-- The invariants hold at power-on, whatever legal parameters the machine has (R8, R9, R36). That only host commands
wait and that the packet space is canonical rest on the model's choice of an empty `pending` and an empty packet space
(log entries 1 and 8). -/
def Obligations.PowerOnMeetsTheInvariants : Prop :=
  State.reset.Inv ∧ State.reset.HostOnly ∧ State.reset.PacketsWf

/-- R36: every step of the host's commands keeps the invariants, the canonical form of the packet spaces among
them. -/
def Obligations.StepKeepsTheInvariants : Prop :=
  ∀ s t : State, s.Inv → s.HostOnly → s.PacketsWf → step s = .next t → t.Inv ∧ t.HostOnly ∧ t.PacketsWf

/-- R200, R207: no host command stops the machine: from a state that meets the invariants every step goes on. -/
def Obligations.HostCommandsNeverStop : Prop :=
  ∀ s : State, s.Inv → s.HostOnly → ∃ t, step s = .next t

/-- R206: the refusal mark is never cleared. -/
def Obligations.RefusalMarkIsNeverCleared : Prop :=
  ∀ s t : State, step s = .next t → s.refused = true → t.refused = true

/-- R54, R59, R61: the output stream only grows at its tail, in every step. -/
def Obligations.OutputStreamOnlyGrows : Prop :=
  ∀ s t : State, step s = .next t → ∃ ys, t.out = s.out ++ ys

/-- R22: only CREATE sets `created` and only DESTROY clears it; R28, R31, R64: CFG, `cutout_enabled` and SYM change
only in a CREATE that reports OK and in DESTROY. -/
def Obligations.ConfigurationIsImmutable : Prop :=
  ∀ (i : Instr) (s t : State), exec i s = .next t →
    (t.created ≠ s.created → i = .create ∧ t.created = true ∨ i = .destroy ∧ t.created = false) ∧
    (t.cfg ≠ s.cfg ∨ t.cutoutEnabled ≠ s.cutoutEnabled ∨ t.sym ≠ s.sym →
      i = .create ∧ s.created = false ∧ t.created = true ∧ t.resStatus = 0 ∨ i = .destroy ∧ t.created = false)

/-- R33: `RES_STATUS` is written only by CREATE, `RES_WRITTEN` and `RES_STATE` only by ENCODE. -/
def Obligations.ResultRegistersHaveOneWriter : Prop :=
  ∀ (i : Instr) (s t : State), exec i s = .next t →
    (t.resStatus ≠ s.resStatus → i = .create) ∧
    (t.resWritten ≠ s.resWritten ∨ t.resState ≠ s.resState → i = .encode)

/-- R21, R50, R51: the block writes none of its inputs: the argument registers, the packet bytes, `CMD`, the waiting
commands and the parameters; every byte of the packet space reads as before. -/
def Obligations.InputsAreNeverWritten : Prop :=
  ∀ (i : Instr) (s t : State), exec i s = .next t →
    t.cfgArgs = s.cfgArgs ∧ t.pktArgs = s.pktArgs ∧ t.cmd = s.cmd ∧ t.pending = s.pending ∧ t.params = s.params ∧
    ∀ a, Memory.read t.pktArgs.pkt a = Memory.read s.pktArgs.pkt a

/-- R84, R51, R75: an ENCODE line hands the block exactly its bytes, and a CREATE line its configuration, with
`level0` and `zerobit` in the two flag bits. -/
def Obligations.HostLinesSetTheArguments : Prop :=
  (∀ (s : State) (bs : List Byte), bs.length < 2 ^ 32 →
    (State.load (HostLine.encode bs).issue s).packet = bs ∧
    (State.load (HostLine.encode bs).issue s).pktArgs.present = true) ∧
  ∀ (s : State) (c : CreateLine),
    let a := (State.load (HostLine.create c).issue s).cfgArgs
    a.present = true ∧ a.preamble = c.preamble ∧ a.bit1 = c.bit1 ∧ a.bit0 = c.bit0 ∧ a.endBit = c.endBit ∧
    a.cutout = c.cutout ∧ a.polarityLevel0 = c.level0 ∧ a.syncZeroEnabled = c.zerobit ∧ a.reservedFlags = 0
end

