-- ==== Sys2Proof/Laws/Ops.lean ====
section
/-! SUPPORT. One lemma for each shared operation, saying everything it can do. -/

namespace Sys2Proof.Machine

/-! ### The environment's answers -/

theorem Draws.accepts_le (free : Nat → Bool) (n : Nat) (d : Draws) : d.accepts free n ≤ n := by
  induction n generalizing d with
  | zero => exact Nat.le_refl 0
  | succ n ih => simp only [Draws.accepts]; split <;> have := ih d.rest <;> omega

theorem State.accepts_le (n : Nat) (s : State) : s.accepts n ≤ n := Draws.accepts_le _ n _

@[simp] theorem State.accepts_zero (s : State) : s.accepts 0 = 0 := rfl

theorem State.accepts_succ (n : Nat) (s : State) (y : Symbol) :
    s.accepts (n + 1) = if s.symAnswer then (s.accepted y).accepts n + 1 else 0 := rfl

/-- Only the answers matter to `accepts`. -/
theorem State.accepts_congr {s t : State} (h : s.symDraws = t.symDraws) (n : Nat) : s.accepts n = t.accepts n := by
  simp only [State.accepts, h]

theorem State.drawsAfter_congr {s t : State} (h : s.symDraws = t.symDraws) (n : Nat) :
    s.drawsAfter n = t.drawsAfter n := by
  rw [State.drawsAfter, State.drawsAfter, State.accepts_congr h, h]

@[simp] theorem Draws.dropped_zero (d : Draws) : d.dropped 0 = d := by simp [Draws.dropped]

theorem Draws.dropped_succ (k : Nat) (d : Draws) : d.dropped (k + 1) = d.rest.dropped k := by
  simp [Draws.dropped, Draws.rest, Nat.add_assoc, Nat.add_comm 1 k]

theorem Draws.dropped_dropped (j k : Nat) (d : Draws) : (d.dropped j).dropped k = d.dropped (j + k) := by
  simp [Draws.dropped, Nat.add_assoc]

@[simp] theorem State.drawsAfter_zero (s : State) : s.drawsAfter 0 = s.symDraws := by simp [State.drawsAfter]

theorem State.drawsAfter_succ (n : Nat) (s : State) (y : Symbol) :
    s.drawsAfter (n + 1) = if s.symAnswer then (s.accepted y).drawsAfter n else s.symDraws.rest := by
  simp only [State.drawsAfter, State.accepts_succ n s y]
  by_cases h : s.symAnswer = true
  · simp only [h, if_true, Nat.add_right_cancel_iff]
    by_cases hk : (s.accepted y).accepts n = n
    · simp only [hk, if_true, Draws.dropped_succ]; rfl
    · simp only [hk, if_false, Draws.dropped_succ]; rfl
  · simp only [h, if_false, Bool.false_eq_true]
    simp [Draws.dropped_succ]

/-- The first `m` of `m + n` answers are yes: then the rest is counted after them. -/
theorem Draws.accepts_add (free : Nat → Bool) (m n : Nat) (d : Draws) :
    d.accepts free (m + n) =
      if d.accepts free m = m then m + (d.dropped m).accepts free n else d.accepts free m := by
  induction m generalizing d with
  | zero => simp [Draws.accepts]
  | succ m ih =>
    rw [show m + 1 + n = (m + n) + 1 by omega]
    simp only [Draws.accepts]
    split
    · rw [ih d.rest, Draws.dropped_succ]
      by_cases hk : d.rest.accepts free m = m
      · simp only [hk, if_true]; omega
      · simp [hk]
    · simp

/-! ### The emitters -/

/-- EMIT_BIT writes one symbol, or nothing (R120). -/
theorem emitBit_accepted {sel : Sel} {s : State} (h : s.symAnswer = true) :
    emitBit sel s = ⟨1, .complete, s.accepted (s.sym.get sel)⟩ := by
  rw [emitBit, if_pos h]

theorem emitBit_full {sel : Sel} {s : State} (h : s.symAnswer = false) :
    emitBit sel s = ⟨0, .full, s.notAccepted⟩ := by
  rw [emitBit, if_neg (by simp [h])]

/-- The verdict of a run of `n` symbols of which `k` were accepted. -/
def emitVerdict (n k : Nat) : EmitVerdict := if k = n then .complete else .full

/-- The loop of the phase handlers writes the symbols the buffer accepts and counts each in `progress`. -/
theorem emitRun_eq (sel : Sel) (n : Nat) (s : State) :
    emitRun sel n s =
      ⟨s.accepts n, emitVerdict n (s.accepts n),
        { s with
          out := s.out ++ List.replicate (s.accepts n) (s.sym.get sel)
          symDraws := s.drawsAfter n
          progress := s.progress + BitVec.ofNat 8 (s.accepts n) }⟩ := by
  induction n generalizing s with
  | zero => simp [emitRun, emitVerdict]
  | succ n ih =>
    rw [emitRun, State.accepts_succ n s (s.sym.get sel), State.drawsAfter_succ n s (s.sym.get sel)]
    by_cases h : s.symAnswer = true
    · have hc : (s.accepted (s.sym.get sel)).bump.accepts n = (s.accepted (s.sym.get sel)).accepts n := rfl
      have hd : (s.accepted (s.sym.get sel)).bump.drawsAfter n = (s.accepted (s.sym.get sel)).drawsAfter n := rfl
      simp only [emitBit_accepted h, ih, hc, hd, h, if_true]
      have hv : emitVerdict n ((s.accepted (s.sym.get sel)).accepts n) =
          emitVerdict (n + 1) ((s.accepted (s.sym.get sel)).accepts n + 1) := by simp [emitVerdict]
      simp only [hv, EmitRet.mk.injEq]
      refine ⟨Nat.add_comm _ _, trivial, ?_⟩
      simp only [State.bump, State.accepted, List.append_assoc, List.singleton_append, ← List.replicate_succ,
        State.mk.injEq, and_true, true_and]
      rw [Nat.add_comm, BitVec.ofNat_add]
      ac_rfl
    · simp only [Bool.not_eq_true] at h
      simp [emitBit_full h, h, emitVerdict, State.notAccepted]

/-- The bits of a byte from the cursor on. -/
theorem bitsOf_drop {b : Byte} {n : Nat} (h : n < 8) :
    (bitsOf b).drop (7 - n) = selOfBit (b.getLsbD n) :: (bitsOf b).drop (8 - n) := by
  interval_cases n <;> rfl

/-- The loop of EMIT_BYTE writes the bits the buffer accepts (R122, R123). -/
theorem emitBits_eq (b : Byte) (n : Nat) (hn : n ≤ 8) (s : State) (hs : s.bitCursor = BitVec.ofNat 3 (8 - n)) :
    emitBits b n s =
      ⟨s.accepts n, emitVerdict n (s.accepts n),
        { s with
          out := s.out ++ s.sym.symbols (((bitsOf b).drop (8 - n)).take (s.accepts n))
          symDraws := s.drawsAfter n
          bitCursor := BitVec.ofNat 3 (8 - n + s.accepts n) }⟩ := by
  induction n generalizing s with
  | zero => simp [emitBits, emitVerdict, State.withCursor, SymTab.symbols]
  | succ n ih =>
    obtain ⟨y, hy⟩ : ∃ y, y = s.sym.get (selOfBit (b.getLsbD n)) := ⟨_, rfl⟩
    rw [emitBits, State.accepts_succ n s y, State.drawsAfter_succ n s y]
    by_cases h : s.symAnswer = true
    · have hc : ((s.accepted y).withCursor (BitVec.ofNat 3 (8 - n))).accepts n = (s.accepted y).accepts n := rfl
      have hd : ((s.accepted y).withCursor (BitVec.ofNat 3 (8 - n))).drawsAfter n = (s.accepted y).drawsAfter n := rfl
      have hi := ih (by omega) ((s.accepted y).withCursor (BitVec.ofNat 3 (8 - n))) rfl
      simp only [emitBit_accepted h, ← hy, hi, hc, hd, h, if_true]
      have hv : emitVerdict n ((s.accepted y).accepts n) = emitVerdict (n + 1) ((s.accepted y).accepts n + 1) := by
        simp [emitVerdict]
      simp only [hv, EmitRet.mk.injEq]
      refine ⟨Nat.add_comm _ _, trivial, ?_⟩
      have hb := bitsOf_drop (b := b) (n := n) (by omega)
      rw [show 8 - (n + 1) = 7 - n by omega, hb]
      simp only [State.withCursor, State.accepted, SymTab.symbols, List.take_succ_cons, List.map_cons, ← hy,
        List.append_assoc, List.singleton_append, State.mk.injEq, and_true, true_and]
      congr 1; omega
    · simp only [Bool.not_eq_true] at h
      simp [emitBit_full h, h, emitVerdict, State.notAccepted, SymTab.symbols, hs]

/-- EMIT_BYTE(b) writes the unsent bits of `b` the buffer accepts, most significant first, and counts them in
`bit_cursor`, which is 0 again when the byte is finished (R122, R123). -/
theorem emitByte_eq (b : Byte) (s : State) :
    emitByte b s =
      let n := 8 - s.bitCursor.toNat
      ⟨s.accepts n, emitVerdict n (s.accepts n),
        { s with
          out := s.out ++ s.sym.symbols (((bitsOf b).drop s.bitCursor.toNat).take (s.accepts n))
          symDraws := s.drawsAfter n
          bitCursor := BitVec.ofNat 3 (s.bitCursor.toNat + s.accepts n) }⟩ := by
  have hlt := s.bitCursor.isLt
  have h8 : 8 - (8 - s.bitCursor.toNat) = s.bitCursor.toNat := by omega
  have := emitBits_eq b (8 - s.bitCursor.toNat) (by omega) s (by rw [h8]; simp)
  rw [emitByte, this, h8]

/-! ### The phase handlers -/

/-- The verdict of a handler that advances when its symbols are all written. -/
def phaseVerdict (n k : Nat) : PhaseVerdict := if k = n then .next else .full

/-- A phase of `total` symbols resumed at `progress` (R150 to R153): it keeps its place when the buffer is full and
moves to its successor, with progress 0, when its symbols are all written. -/
theorem emitPhase_eq (sel : Sel) (total : Nat) (nxt : Phase) (s : State) :
    emitPhase sel total nxt s =
      let n := total - s.progress.toNat
      let k := s.accepts n
      ⟨k, phaseVerdict n k,
        { s with
          out := s.out ++ List.replicate k (s.sym.get sel)
          symDraws := s.drawsAfter n
          phase := if k = n then nxt else s.phase
          progress := if k = n then 0 else s.progress + BitVec.ofNat 8 k }⟩ := by
  simp only [emitPhase, emitRun_eq, emitVerdict, phaseVerdict]
  split
  · next h =>
    have : s.accepts (total - s.progress.toNat) ≠ total - s.progress.toNat := by
      intro hk; rw [if_pos hk] at h; exact absurd h (by decide)
    simp [this]
  · next h =>
    have : s.accepts (total - s.progress.toNat) = total - s.progress.toNat := by
      by_contra hk; rw [if_neg hk] at h; exact absurd h (by decide)
    simp [this, State.toPhase]

/-- The buffer fills before the phase's symbols are all written: the phase keeps its place. -/
theorem emitPhase_full {sel : Sel} {total : Nat} {nxt : Phase} {s : State}
    (h : s.accepts (total - s.progress.toNat) ≠ total - s.progress.toNat) :
    emitPhase sel total nxt s =
      ⟨s.accepts (total - s.progress.toNat), .full,
        { s with
          out := s.out ++ List.replicate (s.accepts (total - s.progress.toNat)) (s.sym.get sel)
          symDraws := s.drawsAfter (total - s.progress.toNat)
          progress := s.progress + BitVec.ofNat 8 (s.accepts (total - s.progress.toNat)) }⟩ := by
  rw [emitPhase_eq]; simp [phaseVerdict, h]

/-- All the phase's symbols are written: it moves to its successor. -/
theorem emitPhase_next {sel : Sel} {total : Nat} {nxt : Phase} {s : State}
    (h : s.accepts (total - s.progress.toNat) = total - s.progress.toNat) :
    emitPhase sel total nxt s =
      ⟨total - s.progress.toNat, .next,
        { s with
          out := s.out ++ List.replicate (total - s.progress.toNat) (s.sym.get sel)
          symDraws := s.drawsAfter (total - s.progress.toNat)
          phase := nxt
          progress := 0 }⟩ := by
  rw [emitPhase_eq]; simp [phaseVerdict, h]

/-- PH_DATA on the byte `b` (R154). -/
theorem phDataByte_eq (b : Byte) (s : State) :
    phDataByte b s =
      let n := 8 - s.bitCursor.toNat
      let k := s.accepts n
      let i := s.byteIndex + 1
      ⟨k, phaseVerdict n k,
        { s with
          out := s.out ++ s.sym.symbols (((bitsOf b).drop s.bitCursor.toNat).take k)
          symDraws := s.drawsAfter n
          bitCursor := BitVec.ofNat 3 (s.bitCursor.toNat + k)
          byteIndex := if k = n then i else s.byteIndex
          phase := if k = n then (if i = s.pktArgs.len then .endBit else .start) else s.phase
          progress := if k = n then 0 else s.progress }⟩ := by
  simp only [phDataByte, emitByte_eq, emitVerdict, phaseVerdict]
  split
  · next h =>
    have : s.accepts (8 - s.bitCursor.toNat) ≠ 8 - s.bitCursor.toNat := by
      intro hk; rw [if_pos hk] at h; exact absurd h (by decide)
    simp [this]
  · next h =>
    have : s.accepts (8 - s.bitCursor.toNat) = 8 - s.bitCursor.toNat := by
      by_contra hk; rw [if_neg hk] at h; exact absurd h (by decide)
    simp [this, State.toPhase]

/-- The buffer fills inside the byte: PH_DATA keeps its place. -/
theorem phDataByte_full {b : Byte} {s : State} (h : s.accepts (8 - s.bitCursor.toNat) ≠ 8 - s.bitCursor.toNat) :
    phDataByte b s =
      ⟨s.accepts (8 - s.bitCursor.toNat), .full,
        { s with
          out := s.out ++ s.sym.symbols (((bitsOf b).drop s.bitCursor.toNat).take
            (s.accepts (8 - s.bitCursor.toNat)))
          symDraws := s.drawsAfter (8 - s.bitCursor.toNat)
          bitCursor := BitVec.ofNat 3 (s.bitCursor.toNat + s.accepts (8 - s.bitCursor.toNat)) }⟩ := by
  rw [phDataByte_eq]; simp [phaseVerdict, h]

/-- The byte is finished: PH_DATA moves to End after the last byte and to Start after any other. -/
theorem phDataByte_next {b : Byte} {s : State} (h : s.accepts (8 - s.bitCursor.toNat) = 8 - s.bitCursor.toNat) :
    phDataByte b s =
      ⟨8 - s.bitCursor.toNat, .next,
        { s with
          out := s.out ++ s.sym.symbols ((bitsOf b).drop s.bitCursor.toNat)
          symDraws := s.drawsAfter (8 - s.bitCursor.toNat)
          bitCursor := 0
          byteIndex := s.byteIndex + 1
          phase := if s.byteIndex + 1 = s.pktArgs.len then .endBit else .start
          progress := 0 }⟩ := by
  have hlt := s.bitCursor.isLt
  have h8 : s.bitCursor.toNat + (8 - s.bitCursor.toNat) = 8 := by omega
  have ht : ((bitsOf b).drop s.bitCursor.toNat).take (8 - s.bitCursor.toNat) = (bitsOf b).drop s.bitCursor.toNat :=
    List.take_of_length_le (by simp [bitsOf])
  rw [phDataByte_eq]; simp [phaseVerdict, h, h8, ht]

/-- PH_DATA reads the byte at `byte_index` and stops only where the packet has no such byte (R52, R154). -/
theorem phData_eq (s : State) :
    phData s =
      if s.byteIndex.toNat < s.packetLen then .ok (phDataByte (Memory.read s.pktArgs.pkt s.byteIndex.toNat) s)
      else .error .pktIndexOutOfRange := by
  simp only [phData, pktRead]
  split <;> split <;> simp_all

/-- PH_END (R155). -/
theorem phEnd_eq (s : State) :
    phEnd s =
      if s.symAnswer then
        ⟨1, .done,
          { s with
            out := s.out ++ [s.sym.endBit]
            symDraws := s.symDraws.rest
            phase := .cutout
            progress := 0
            byteIndex := 0 }⟩
      else ⟨0, .full, { s with symDraws := s.symDraws.rest }⟩ := by
  by_cases h : s.symAnswer = true
  · simp [phEnd, emitBit_accepted h, h, State.accepted, State.toPhase, SymTab.get]
  · simp only [Bool.not_eq_true] at h
    simp [phEnd, emitBit_full h, h, State.notAccepted]

end Sys2Proof.Machine
end

