-- ==== Sys2Proof/Laws/Encode.lean ====
section
/-! SUPPORT. One handler inside a packet: which symbols of the cycle it offers, and where it leaves the block. -/

namespace Sys2Proof.Machine

/-- Inside a packet cycle of `pkt`: the packet is latched and the position is one of R36. -/
structure State.InPacket (s : State) (pkt : List Byte) : Prop where
  packet : s.packet = pkt
  latch : s.pktLatch = some pkt
  position : s.PositionInv

theorem State.packet_length (s : State) : s.packet.length = s.packetLen := by simp [State.packet]

theorem State.packet_getD (s : State) {i : Nat} (h : i < s.packetLen) :
    s.packet.getD i 0 = Memory.read s.pktArgs.pkt i := by
  simp [State.packet, List.getD, h]

/-- The checks of R142 all pass exactly when ENCODE is accepted. -/
theorem checkEncodeArgs_eq_none_iff (s : State) : checkEncodeArgs s = none ↔ s.EncodeAccepted := by
  have hlen : ¬ (s.packetLen = 0 ∨ s.params.maxPacketLen < s.packetLen) ↔
      1 ≤ s.packetLen ∧ s.packetLen ≤ s.params.maxPacketLen := by omega
  have hlatch : ¬ (s.pktLatch ≠ none ∧ s.pktLatch ≠ some s.packet) ↔
      s.pktLatch = none ∨ s.pktLatch = some s.packet := by tauto
  simp only [State.EncodeAccepted, ← hlen, ← hlatch, checkEncodeArgs]
  by_cases h1 : s.created = false
  · simp [h1]
  by_cases h2 : s.pktArgs.present = false
  · simp [h1, h2]
  by_cases h3 : s.packetLen = 0 ∨ s.params.maxPacketLen < s.packetLen
  · simp [h1, h2, h3]
  by_cases h4 : s.pktLatch ≠ none ∧ s.pktLatch ≠ some s.packet
  · simp only [if_neg h1, if_neg h2, if_neg h3, if_pos h4]; simp [h4]
  · simp only [if_neg h1, if_neg h2, if_neg h3, if_neg h4]; simp only [Bool.not_eq_false] at h1 h2; simp [h1, h2, h3, h4]

theorem dataAndEnd_drop {pkt : List Byte} {i : Nat} (h : i < pkt.length) :
    dataAndEnd (pkt.drop i) = .zero :: (bitsOf (pkt.getD i 0) ++ dataAndEnd (pkt.drop (i + 1))) := by
  unfold dataAndEnd
  rw [List.drop_eq_getElem_cons h, List.flatMap_cons]
  simp [byteFrame, List.getD, h]

theorem bitsOf_length (b : Byte) : (bitsOf b).length = 8 := rfl

/-- The registers a phase handler may change. -/
def State.sameBut (s t : State) : Prop :=
  t = { s with
    phase := t.phase, progress := t.progress, byteIndex := t.byteIndex, bitCursor := t.bitCursor,
    out := t.out, symDraws := t.symDraws }

/-- What one handler does inside a packet cycle: it offers the symbols `seg`, the first of those remaining. When all
are accepted it moves on and the rest remain; otherwise it keeps its place. -/
structure Offers (s : State) (pkt : List Byte) (seg rest : List Sel) (r : PhaseRet) : Prop where
  split : s.remaining pkt = seg ++ rest
  count : r.count = s.accepts seg.length
  frame : s.sameBut r.st
  out : r.st.out = s.out ++ s.sym.symbols (seg.take (s.accepts seg.length))
  draws : r.st.symDraws = s.drawsAfter seg.length
  full : s.accepts seg.length ≠ seg.length →
    r.verdict = .full ∧ r.st.remaining pkt = (s.remaining pkt).drop (s.accepts seg.length) ∧ r.st.PositionInv
  next : s.accepts seg.length = seg.length → rest ≠ [] →
    r.verdict = .next ∧ r.st.remaining pkt = rest ∧ r.st.PositionInv
  done : s.accepts seg.length = seg.length → rest = [] →
    r.verdict = .done ∧ r.st.phase = .cutout ∧ r.st.progress = 0 ∧ r.st.byteIndex = 0 ∧ r.st.bitCursor = 0

theorem SymTab.symbols_replicate (t : SymTab) (n : Nat) (y : Sel) :
    t.symbols (List.replicate n y) = List.replicate n (t.get y) := by simp [SymTab.symbols]

theorem dataAndEnd_ne_nil (l : List Byte) : dataAndEnd l ≠ [] := by simp [dataAndEnd]

/-- A phase of `total` equal symbols, as a segment of the cycle. -/
theorem emitPhase_offers {s : State} {pkt : List Byte} {y : Sel} {nxt : Phase} {rest : List Sel}
    (hp : s.InPacket pkt)
    (htot : need s.cfg s.cutoutEnabled s.phase < 256)
    (hrem : ∀ t : State, t.phase = s.phase → t.cfg = s.cfg → t.cutoutEnabled = s.cutoutEnabled →
      t.byteIndex = s.byteIndex → t.progress.toNat ≤ need s.cfg s.cutoutEnabled s.phase →
      t.remaining pkt = List.replicate (need s.cfg s.cutoutEnabled s.phase - t.progress.toNat) y ++ rest)
    (hnext : ∀ t : State, s.sameBut t → t.phase = nxt → t.progress = 0 → t.byteIndex = s.byteIndex →
      t.bitCursor = s.bitCursor → t.remaining pkt = rest ∧ t.PositionInv)
    (hpos : ∀ t : State, s.sameBut t → t.phase = s.phase → t.byteIndex = s.byteIndex → t.bitCursor = s.bitCursor →
      t.progress.toNat < need s.cfg s.cutoutEnabled s.phase → t.progress = 0 ∨ s.phase ≠ .start → t.PositionInv)
    (hrest : rest ≠ []) :
    Offers s pkt (List.replicate (need s.cfg s.cutoutEnabled s.phase - s.progress.toNat) y) rest
      (emitPhase y (need s.cfg s.cutoutEnabled s.phase) nxt s) := by
  obtain ⟨total, hT⟩ : ∃ total, total = need s.cfg s.cutoutEnabled s.phase := ⟨_, rfl⟩
  rw [← hT] at htot hrem hpos ⊢
  have hle : s.progress.toNat ≤ total := by
    rcases hp.position.progress_le with h | h
    · omega
    · rw [h]; exact Nat.zero_le _
  have hk := s.accepts_le (total - s.progress.toNat)
  by_cases heq : s.accepts (total - s.progress.toNat) = total - s.progress.toNat
  · rw [emitPhase_next heq]
    refine ⟨hrem s rfl rfl rfl rfl hle, by simp [heq], by simp [State.sameBut], ?_, by simp, ?_, ?_, ?_⟩
    · simp [SymTab.symbols_replicate, List.take_replicate, heq]
    · intro hne; exact absurd (by simpa using heq) hne
    · intro _ _
      exact ⟨rfl, hnext _ (by simp [State.sameBut]) rfl rfl rfl rfl⟩
    · intro _ h; exact absurd h hrest
  · have hlt : s.accepts (total - s.progress.toNat) < total - s.progress.toNat := by omega
    obtain ⟨t, ht⟩ : ∃ t : State, t =
        { s with
          out := s.out ++ List.replicate (s.accepts (total - s.progress.toNat)) (s.sym.get y)
          symDraws := s.drawsAfter (total - s.progress.toNat)
          progress := s.progress + BitVec.ofNat 8 (s.accepts (total - s.progress.toNat)) } := ⟨_, rfl⟩
    have hprog : t.progress.toNat = s.progress.toNat + s.accepts (total - s.progress.toNat) := by
      rw [ht, BitVec.toNat_add, BitVec.toNat_ofNat]; omega
    have hfields : s.sameBut t ∧ t.phase = s.phase ∧ t.byteIndex = s.byteIndex ∧ t.bitCursor = s.bitCursor ∧
        t.cfg = s.cfg ∧ t.cutoutEnabled = s.cutoutEnabled := by simp [ht, State.sameBut]
    obtain ⟨hsb, hph, hbi, hbc, hcfg, hcut⟩ := hfields
    rw [emitPhase_full heq, ← ht]
    refine ⟨hrem s rfl rfl rfl rfl hle, by simp, hsb, ?_, by simp [ht], ?_, ?_, ?_⟩
    · simp [ht, SymTab.symbols_replicate, List.take_replicate, Nat.min_eq_left hk]
    · intro _
      refine ⟨rfl, ?_, ?_⟩
      · rw [hrem t hph hcfg hcut hbi (by omega), hrem s rfl rfl rfl rfl hle,
          List.drop_append_of_le_length (by simpa using hk), List.drop_replicate, hprog]
        simp only [List.length_replicate]
        congr 2; omega
      · refine hpos t hsb hph hbi hbc (by omega) ?_
        by_cases hs : s.phase = .start
        · left
          have h0 := hp.position.progress_zero (Or.inl hs)
          have h1 : total = 1 := by rw [hT, hs]; rfl
          have h0' : s.progress.toNat = 0 := by rw [h0]; rfl
          exact BitVec.eq_of_toNat_eq (by rw [hprog]; simp; omega)
        · exact Or.inr hs
    · intro h; exact absurd (by simpa using h) heq
    · intro _ h; exact absurd h hrest

/-- The position invariant after a handler, from its clauses about the registers a handler may change. -/
theorem positionInv_of_sameBut {s t : State} {pkt : List Byte} (hp : s.InPacket pkt) (hsb : s.sameBut t)
    (hprog : t.progress.toNat < need s.cfg s.cutoutEnabled t.phase ∨ t.progress = 0)
    (hzero : t.phase = .start ∨ t.phase = .data ∨ t.phase = .endBit → t.progress = 0)
    (hcur : t.phase ≠ .data → t.bitCursor = 0)
    (hidx : t.phase = .cutout ∨ t.phase = .syncZero ∨ t.phase = .preamble → t.byteIndex = 0)
    (hlt : t.phase = .start ∨ t.phase = .data → t.byteIndex.toNat < pkt.length)
    (hend : t.phase = .endBit → t.byteIndex.toNat = pkt.length) : t.PositionInv := by
  obtain ⟨hcfg, hcut, hl, hpar⟩ : t.cfg = s.cfg ∧ t.cutoutEnabled = s.cutoutEnabled ∧ t.pktLatch = s.pktLatch ∧
    t.params = s.params := by rw [hsb]; simp
  refine ⟨by rw [hcfg, hcut]; exact hprog, hzero, hcur, hidx, ?_, ?_⟩
  · intro hn; rw [hl, hp.latch] at hn; cases hn
  · intro pkt' hpk
    rw [hl, hp.latch, Option.some.injEq] at hpk
    subst hpk
    exact ⟨by rw [hpar]; exact (hp.position.latched pkt hp.latch).1, hlt, hend⟩

theorem State.sameBut.cfg_eq {s t : State} (h : s.sameBut t) :
    t.cfg = s.cfg ∧ t.cutoutEnabled = s.cutoutEnabled := by rw [h]; simp

/-- PH_CUTOUT inside a packet. -/
theorem phCutout_offers {s : State} {pkt : List Byte} (hp : s.InPacket pkt) (h : s.phase = .cutout) :
    ∃ seg rest, rest ≠ [] ∧ Offers s pkt seg rest (phCutout s) := by
  have hb := hp.position.index_zero (Or.inl h)
  have hc := hp.position.cursor_zero (by simp [h])
  have hrest : List.replicate (need s.cfg s.cutoutEnabled .syncZero) Sel.zero ++
    (List.replicate (need s.cfg s.cutoutEnabled .preamble) .one ++ dataAndEnd pkt) ≠ [] := by simp [dataAndEnd]
  refine ⟨List.replicate (need s.cfg s.cutoutEnabled s.phase - s.progress.toNat) .cutout, _, hrest, ?_⟩
  rw [phCutout, ← h]
  refine emitPhase_offers hp ?_ ?_ ?_ ?_ hrest
  · simp only [h, need, Config.cutoutSymbols]; split <;> omega
  · intro t h1 h2 h3 h4 _
    simp only [State.remaining, h1, h, h2, h3]
  · intro t hsb h1 h2 h3 h4
    refine ⟨?_, positionInv_of_sameBut hp hsb ?_ ?_ ?_ ?_ ?_ ?_⟩ <;>
      simp [State.remaining, h1, h2, h3, h4, hb, hc, hsb.cfg_eq]
  · intro t hsb h1 h2 h3 h4 _
    rw [h] at h1 h4
    refine positionInv_of_sameBut hp hsb ?_ ?_ ?_ ?_ ?_ ?_ <;> simp [h1, h2, h3, h4, hb, hc]

/-- PH_SYNCZERO inside a packet. -/
theorem phSyncZero_offers {s : State} {pkt : List Byte} (hp : s.InPacket pkt) (h : s.phase = .syncZero) :
    ∃ seg rest, rest ≠ [] ∧ Offers s pkt seg rest (phSyncZero s) := by
  have hb := hp.position.index_zero (Or.inr (Or.inl h))
  have hc := hp.position.cursor_zero (by simp [h])
  have hrest : List.replicate (need s.cfg s.cutoutEnabled .preamble) Sel.one ++ dataAndEnd pkt ≠ [] := by
    simp [dataAndEnd]
  refine ⟨List.replicate (need s.cfg s.cutoutEnabled s.phase - s.progress.toNat) .zero, _, hrest, ?_⟩
  rw [phSyncZero, ← h]
  refine emitPhase_offers hp ?_ ?_ ?_ ?_ hrest
  · simp only [h, need]; split <;> omega
  · intro t h1 h2 h3 h4 _
    simp only [State.remaining, h1, h, h2, h3]
  · intro t hsb h1 h2 h3 h4
    refine ⟨?_, positionInv_of_sameBut hp hsb ?_ ?_ ?_ ?_ ?_ ?_⟩ <;>
      simp [State.remaining, h1, h2, h3, h4, hb, hc, hsb.cfg_eq]
  · intro t hsb h1 h2 h3 h4 _
    rw [h] at h1 h4
    refine positionInv_of_sameBut hp hsb ?_ ?_ ?_ ?_ ?_ ?_ <;> simp [h1, h2, h3, h4, hb, hc]

/-- PH_PREAMBLE inside a packet. -/
theorem phPreamble_offers {s : State} {pkt : List Byte} (hp : s.InPacket pkt) (h : s.phase = .preamble) :
    ∃ seg rest, rest ≠ [] ∧ Offers s pkt seg rest (phPreamble s) := by
  have hb := hp.position.index_zero (Or.inr (Or.inr h))
  have hc := hp.position.cursor_zero (by simp [h])
  have hlen := (hp.position.latched pkt hp.latch).1.1
  refine ⟨List.replicate (need s.cfg s.cutoutEnabled s.phase - s.progress.toNat) .one, _, dataAndEnd_ne_nil pkt, ?_⟩
  rw [phPreamble, ← h]
  refine emitPhase_offers hp ?_ ?_ ?_ ?_ (dataAndEnd_ne_nil pkt)
  · simp only [h, need]; exact s.cfg.preambleBits.isLt
  · intro t h1 h2 h3 h4 _
    simp only [State.remaining, h1, h, h2, h3]
  · intro t hsb h1 h2 h3 h4
    refine ⟨?_, positionInv_of_sameBut hp hsb ?_ ?_ ?_ ?_ ?_ ?_⟩
    · have := dataAndEnd_drop (pkt := pkt) (i := 0) (by omega)
      simp only [List.drop_zero] at this
      simp [State.remaining, h1, h2, h3, hb, need, this]
    all_goals simp [h1, h2, h3, h4, hb, hc]
    omega
  · intro t hsb h1 h2 h3 h4 _
    rw [h] at h1 h4
    refine positionInv_of_sameBut hp hsb ?_ ?_ ?_ ?_ ?_ ?_ <;> simp [h1, h2, h3, h4, hb, hc]

/-- PH_START inside a packet. -/
theorem phStart_offers {s : State} {pkt : List Byte} (hp : s.InPacket pkt) (h : s.phase = .start) :
    ∃ seg rest, rest ≠ [] ∧ Offers s pkt seg rest (phStart s) := by
  have hc := hp.position.cursor_zero (by simp [h])
  have hlt := (hp.position.latched pkt hp.latch).2.1 (Or.inl h)
  have h0 := hp.position.progress_zero (Or.inl h)
  have hrest : bitsOf (pkt.getD s.byteIndex.toNat 0) ++ dataAndEnd (pkt.drop (s.byteIndex.toNat + 1)) ≠ [] := by
    simp [dataAndEnd]
  refine ⟨List.replicate (need s.cfg s.cutoutEnabled s.phase - s.progress.toNat) .zero, _, hrest, ?_⟩
  rw [phStart, ← h]
  refine emitPhase_offers hp ?_ ?_ ?_ ?_ hrest
  · simp [h, need]
  · intro t h1 h2 h3 h4 h5
    simp only [State.remaining, h1, h, h2, h3, h4]
  · intro t hsb h1 h2 h3 h4
    refine ⟨?_, positionInv_of_sameBut hp hsb ?_ ?_ ?_ ?_ ?_ ?_⟩ <;>
      simp [State.remaining, h1, h2, h3, h4, hc, hlt]
  · intro t hsb h1 h2 h3 h4 h5
    rw [h] at h1 h4
    have ht : t.progress = 0 := by simpa [h] using h5
    refine positionInv_of_sameBut hp hsb ?_ ?_ ?_ ?_ ?_ ?_ <;> simp [h1, h2, h3, ht, hc, hlt]

/-- The pieces of a packet that PH_DATA looks at. -/
theorem State.InPacket.len_eq {s : State} {pkt : List Byte} (hp : s.InPacket pkt) : s.packetLen = pkt.length := by
  rw [← hp.packet, State.packet_length]

/-- PH_DATA inside a packet. -/
theorem phData_offers {s : State} {pkt : List Byte} (hp : s.InPacket pkt) (h : s.phase = .data) :
    ∃ seg rest r, rest ≠ [] ∧ phData s = .ok r ∧ Offers s pkt seg rest r := by
  have hlt := (hp.position.latched pkt hp.latch).2.1 (Or.inr h)
  have h0 := hp.position.progress_zero (Or.inr (Or.inl h))
  have hcur := s.bitCursor.isLt
  have hN : s.byteIndex.toNat < s.packetLen := by rw [hp.len_eq]; exact hlt
  have hlenN : s.pktArgs.len.toNat = pkt.length := hp.len_eq
  have hget : Memory.read s.pktArgs.pkt s.byteIndex.toNat = pkt.getD s.byteIndex.toNat 0 := by
    rw [← hp.packet, State.packet_getD s hN]
  obtain ⟨b, hb⟩ : ∃ b, b = pkt.getD s.byteIndex.toNat 0 := ⟨_, rfl⟩
  have hrest := dataAndEnd_ne_nil (pkt.drop (s.byteIndex.toNat + 1))
  have hseg : ((bitsOf b).drop s.bitCursor.toNat).length = 8 - s.bitCursor.toNat := by
    rw [List.length_drop, bitsOf_length]
  refine ⟨(bitsOf b).drop s.bitCursor.toNat, _, _, hrest, by rw [phData_eq, if_pos hN, hget, ← hb], ?_⟩
  have hsplit : s.remaining pkt =
      (bitsOf b).drop s.bitCursor.toNat ++ dataAndEnd (pkt.drop (s.byteIndex.toNat + 1)) := by
    simp only [State.remaining, h, hb]
  by_cases heq : s.accepts (8 - s.bitCursor.toNat) = 8 - s.bitCursor.toNat
  · obtain ⟨t, ht⟩ : ∃ t : State, t =
        { s with
          out := s.out ++ s.sym.symbols ((bitsOf b).drop s.bitCursor.toNat)
          symDraws := s.drawsAfter (8 - s.bitCursor.toNat)
          bitCursor := 0
          byteIndex := s.byteIndex + 1
          phase := if s.byteIndex + 1 = s.pktArgs.len then .endBit else .start
          progress := 0 } := ⟨_, rfl⟩
    have hbi : t.byteIndex.toNat = s.byteIndex.toNat + 1 := by
      have := s.pktArgs.len.isLt
      rw [ht]; simp only [BitVec.toNat_add]
      rw [show BitVec.toNat (1 : BitVec 32) = 1 from rfl, Nat.mod_eq_of_lt (by omega)]
    have hlast : t.byteIndex = s.pktArgs.len ↔ s.byteIndex.toNat + 1 = pkt.length := by
      rw [← hlenN, ← hbi, BitVec.toNat_inj]
    have hph : t.phase = if t.byteIndex = s.pktArgs.len then .endBit else .start := by rw [ht]
    rw [if_congr hlast rfl rfl] at hph
    have hpr : t.progress = 0 := by rw [ht]
    have hbc : t.bitCursor = 0 := by rw [ht]
    have hsb : s.sameBut t := by simp [ht, State.sameBut]
    have hout : t.out = s.out ++ s.sym.symbols ((bitsOf b).drop s.bitCursor.toNat) := by rw [ht]
    have hdr : t.symDraws = s.drawsAfter (8 - s.bitCursor.toNat) := by rw [ht]
    rw [phDataByte_next heq, ← ht]
    refine ⟨hsplit, by simp [hseg, heq], hsb, ?_, by simp [hseg, hdr], ?_, ?_, ?_⟩
    · simp only [hseg, heq, hout]; rw [List.take_of_length_le (by omega)]
    · intro hne; exact absurd (by rw [hseg]; exact heq) hne
    · intro _ _
      refine ⟨rfl, ?_, positionInv_of_sameBut hp hsb (Or.inr hpr) (fun _ => hpr) (fun _ => hbc) ?_ ?_ ?_⟩
      · by_cases hl : s.byteIndex.toNat + 1 = pkt.length
        · simp only [State.remaining, hph, hl, if_true]; simp [dataAndEnd]
        · simp only [State.remaining, hph, hl, if_false, hpr, hbi]
          rw [dataAndEnd_drop (by omega : s.byteIndex.toNat + 1 < pkt.length)]; simp [need]
      all_goals rw [hph]; split <;> simp [hbi] <;> omega
    · intro _ hr; exact absurd hr hrest
  · obtain ⟨t, ht⟩ : ∃ t : State, t =
        { s with
          out := s.out ++ s.sym.symbols (((bitsOf b).drop s.bitCursor.toNat).take
            (s.accepts (8 - s.bitCursor.toNat)))
          symDraws := s.drawsAfter (8 - s.bitCursor.toNat)
          bitCursor := BitVec.ofNat 3 (s.bitCursor.toNat + s.accepts (8 - s.bitCursor.toNat)) } := ⟨_, rfl⟩
    have hle := s.accepts_le (8 - s.bitCursor.toNat)
    have hbc : t.bitCursor.toNat = s.bitCursor.toNat + s.accepts (8 - s.bitCursor.toNat) := by
      rw [ht, BitVec.toNat_ofNat]; omega
    have hsb : s.sameBut t := by rw [ht]; simp [State.sameBut]
    have hph : t.phase = .data := by rw [ht]; exact h
    have hpr : t.progress = 0 := by rw [ht]; exact h0
    have hbi : t.byteIndex = s.byteIndex := by rw [ht]
    rw [phDataByte_full heq, ← ht]
    refine ⟨hsplit, by simp [hseg], hsb, by simp [ht, hseg], by simp [ht, hseg], ?_, ?_, ?_⟩
    · intro _
      refine ⟨rfl, ?_, positionInv_of_sameBut hp hsb (Or.inr hpr) (fun _ => hpr) ?_ ?_ ?_ ?_⟩
      · rw [hsplit, hseg, List.drop_append_of_le_length (by omega), List.drop_drop]
        simp only [State.remaining, hph, hbi, hbc, ← hb]
      all_goals simp [hph, hbi, hlt]
    · intro hh; exact absurd (by rw [← hseg]; exact hh) heq
    · intro _ hr; exact absurd hr hrest

/-- PH_END inside a packet. -/
theorem phEnd_offers {s : State} {pkt : List Byte} (hp : s.InPacket pkt) (h : s.phase = .endBit) :
    Offers s pkt [.endBit] [] (phEnd s) := by
  have hc := hp.position.cursor_zero (by simp [h])
  have hsplit : s.remaining pkt = [.endBit] ++ [] := by simp only [State.remaining, h]; rfl
  have ha : s.accepts 1 = if s.symAnswer then 1 else 0 := by
    rw [State.accepts_succ 0 s s.sym.endBit]; simp
  have hd : s.drawsAfter 1 = s.symDraws.rest := by
    rw [State.drawsAfter_succ 0 s s.sym.endBit]; simp [State.accepted]
  rw [phEnd_eq]
  by_cases hs : s.symAnswer = true
  · simp only [hs, if_true] at ha ⊢
    refine ⟨hsplit, by simp [ha], by simp [State.sameBut], by simp [ha, SymTab.symbols, SymTab.get], by simp [hd],
      ?_, ?_, ?_⟩
    · intro hne; exact absurd ha hne
    · intro _ hr; exact absurd rfl hr
    · intro _ _; exact ⟨rfl, rfl, rfl, rfl, hc⟩
  · simp only [hs, if_false, Bool.false_eq_true] at ha ⊢
    have hsb : s.sameBut { s with symDraws := s.symDraws.rest } := by simp [State.sameBut]
    refine ⟨hsplit, by simp [ha], hsb, by simp [ha, SymTab.symbols], by simp [hd], ?_, ?_, ?_⟩
    · intro _
      refine ⟨rfl, by simp only [List.length_singleton, ha, List.drop_zero]; rfl, ?_⟩
      have hl := hp.position.latched pkt hp.latch
      exact ⟨hp.position.progress_le, hp.position.progress_zero, hp.position.cursor_zero, hp.position.index_zero,
        hp.position.unlatched, hp.position.latched⟩
    · intro hh; rw [List.length_singleton, ha] at hh; cases hh
    · intro hh; rw [List.length_singleton, ha] at hh; cases hh

/-- What the dispatch does inside a packet cycle (R141): the handler of the current phase offers the next symbols. -/
theorem dispatch_offers {s : State} {pkt : List Byte} (hp : s.InPacket pkt) :
    ∃ seg rest r, dispatch s = .ok r ∧ Offers s pkt seg rest r ∧ (rest = [] ↔ s.phase = .endBit) := by
  unfold dispatch
  cases h : s.phase with
  | cutout => obtain ⟨a, b, hr, ho⟩ := phCutout_offers hp h; exact ⟨a, b, _, rfl, ho, by simp [hr]⟩
  | syncZero => obtain ⟨a, b, hr, ho⟩ := phSyncZero_offers hp h; exact ⟨a, b, _, rfl, ho, by simp [hr]⟩
  | preamble => obtain ⟨a, b, hr, ho⟩ := phPreamble_offers hp h; exact ⟨a, b, _, rfl, ho, by simp [hr]⟩
  | start => obtain ⟨a, b, hr, ho⟩ := phStart_offers hp h; exact ⟨a, b, _, rfl, ho, by simp [hr]⟩
  | data => obtain ⟨a, b, r, hr, he, ho⟩ := phData_offers hp h; exact ⟨a, b, r, he, ho, by simp [hr]⟩
  | endBit => exact ⟨_, _, _, rfl, phEnd_offers hp h, by simp⟩

end Sys2Proof.Machine
end

