-- ==== Sys2Proof/Laws/Memory.lean ====
section
/-! SUPPORT. The laws of the packet space: read after write, and that every operation keeps the canonical form. -/

namespace Sys2Proof.Machine

theorem Memory.read_of_lt_wfFrom {lo : Nat} {m : Memory} (h : Memory.wfFrom lo m = true) {a : Nat} (ha : a < lo) :
    Memory.read m a = Memory.unlisted := by
  induction m generalizing lo with
  | nil => rfl
  | cons c rest ih =>
    obtain ⟨k, b⟩ := c
    simp only [Memory.wfFrom, Bool.and_eq_true, decide_eq_true_eq] at h
    simp only [Memory.read, if_neg (by omega : k ≠ a)]
    exact ih h.2 (by omega)

/-- A read after a write at the same index gives the byte written. -/
theorem Memory.read_write_same {lo : Nat} {m : Memory} (h : Memory.wfFrom lo m = true) (a : Nat) (v : Byte) :
    Memory.read (Memory.write m a v) a = v := by
  induction m generalizing lo with
  | nil => by_cases hv : v = Memory.unlisted <;> simp [Memory.write, Memory.read, hv]
  | cons c rest ih =>
    obtain ⟨k, b⟩ := c
    simp only [Memory.wfFrom, Bool.and_eq_true, decide_eq_true_eq] at h
    simp only [Memory.write]
    split
    · split
      · next hv =>
        simp only [Memory.read, if_neg (by omega : k ≠ a), hv]
        exact Memory.read_of_lt_wfFrom h.2 (by omega)
      · simp [Memory.read]
    · split
      · split
        · next hk hv => rw [hv]; exact Memory.read_of_lt_wfFrom h.2 (by omega)
        · simp [Memory.read]
      · next h1 h2 =>
        simp only [Memory.read, if_neg (by omega : k ≠ a)]
        exact ih h.2

/-- A write leaves every other index alone. -/
theorem Memory.read_write_other {m : Memory} {a a' : Nat} (v : Byte) (h : a' ≠ a) :
    Memory.read (Memory.write m a v) a' = Memory.read m a' := by
  induction m with
  | nil => by_cases hv : v = Memory.unlisted <;> simp [Memory.write, Memory.read, hv, h.symm]
  | cons c rest ih =>
    obtain ⟨k, b⟩ := c
    simp only [Memory.write]
    split
    · split
      · rfl
      · simp [Memory.read, h.symm]
    · split
      · next hk => subst hk; split <;> simp [Memory.read, h.symm]
      · simp only [Memory.read, ih]

theorem Memory.wfFrom_mono {lo lo' : Nat} {m : Memory} (h : Memory.wfFrom lo m = true) (hl : lo' ≤ lo) :
    Memory.wfFrom lo' m = true := by
  cases m with
  | nil => rfl
  | cons c rest =>
    obtain ⟨k, b⟩ := c
    simp only [Memory.wfFrom, Bool.and_eq_true, decide_eq_true_eq] at h ⊢
    exact ⟨⟨by omega, h.1.2⟩, h.2⟩

theorem Memory.wfFrom_write {lo : Nat} {m : Memory} (h : Memory.wfFrom lo m = true) {a : Nat} (ha : lo ≤ a)
    (v : Byte) : Memory.wfFrom lo (Memory.write m a v) = true := by
  induction m generalizing lo with
  | nil => by_cases hv : v = Memory.unlisted <;> simp [Memory.write, Memory.wfFrom, hv, ha]
  | cons c rest ih =>
    obtain ⟨k, b⟩ := c
    simp only [Memory.wfFrom, Bool.and_eq_true, decide_eq_true_eq] at h
    simp only [Memory.write]
    split
    · split
      · simpa only [Memory.wfFrom, Bool.and_eq_true, decide_eq_true_eq] using h
      · next hk hv =>
        simp only [Memory.wfFrom, Bool.and_eq_true, decide_eq_true_eq]
        exact ⟨⟨ha, by simpa using hv⟩, ⟨by omega, h.1.2⟩, h.2⟩
    · split
      · split
        · exact Memory.wfFrom_mono h.2 (by omega)
        · next hk hv =>
          simp only [Memory.wfFrom, Bool.and_eq_true, decide_eq_true_eq]
          exact ⟨⟨ha, by simpa using hv⟩, hk ▸ h.2⟩
      · simp only [Memory.wfFrom, Bool.and_eq_true, decide_eq_true_eq]
        exact ⟨h.1, ih h.2 (by omega)⟩

/-- A write keeps the canonical form. -/
theorem Memory.wf_write {m : Memory} (h : m.wf = true) (a : Nat) (v : Byte) : (Memory.write m a v).wf = true :=
  Memory.wfFrom_write h (Nat.zero_le a) v

theorem Memory.wfFrom_ofBytesFrom (i : Nat) (bs : List Byte) : Memory.wfFrom i (Memory.ofBytesFrom i bs) = true := by
  induction bs generalizing i with
  | nil => rfl
  | cons b bs ih =>
    simp only [Memory.ofBytesFrom]
    split
    · exact Memory.wfFrom_mono (ih (i + 1)) (by omega)
    · next hb => simpa [Memory.wfFrom, hb] using ih (i + 1)

/-- The packet space of a list of bytes is in the canonical form. -/
theorem Memory.wf_ofBytes (bs : List Byte) : (Memory.ofBytes bs).wf = true := Memory.wfFrom_ofBytesFrom 0 bs

theorem Memory.read_ofBytesFrom (i : Nat) (bs : List Byte) (n : Nat) :
    Memory.read (Memory.ofBytesFrom i bs) (i + n) = bs.getD n Memory.unlisted := by
  induction bs generalizing i n with
  | nil => rfl
  | cons b bs ih =>
    have hrest : ∀ m, Memory.read (Memory.ofBytesFrom (i + 1) bs) (i + (m + 1)) = bs.getD m Memory.unlisted := by
      intro m; rw [show i + (m + 1) = (i + 1) + m by omega]; exact ih (i + 1) m
    simp only [Memory.ofBytesFrom]
    cases n with
    | zero =>
      split
      · next hb =>
        rw [Memory.read_of_lt_wfFrom (Memory.wfFrom_ofBytesFrom (i + 1) bs) (by omega)]; simp [hb]
      · simp [Memory.read]
    | succ m =>
      split
      · simpa using hrest m
      · simp only [Memory.read, if_neg (by omega : i ≠ i + (m + 1))]; simpa using hrest m

/-- Every byte of the list is read back at its index. -/
theorem Memory.read_ofBytes (bs : List Byte) (n : Nat) :
    Memory.read (Memory.ofBytes bs) n = bs.getD n Memory.unlisted := by
  simpa [Memory.ofBytes] using Memory.read_ofBytesFrom 0 bs n

/-- Two packet spaces in the canonical form that read alike are equal. -/
theorem Memory.eq_of_read_eq {lo : Nat} {m m' : Memory} (h : Memory.wfFrom lo m = true)
    (h' : Memory.wfFrom lo m' = true) (hr : ∀ a, Memory.read m a = Memory.read m' a) : m = m' := by
  induction m generalizing lo m' with
  | nil =>
    cases m' with
    | nil => rfl
    | cons c rest =>
      obtain ⟨k, b⟩ := c
      simp only [Memory.wfFrom, Bool.and_eq_true, decide_eq_true_eq, bne_iff_ne] at h'
      exact absurd (by simpa [Memory.read] using (hr k).symm) h'.1.2
  | cons c rest ih =>
    obtain ⟨k, b⟩ := c
    simp only [Memory.wfFrom, Bool.and_eq_true, decide_eq_true_eq, bne_iff_ne] at h
    cases m' with
    | nil => exact absurd (by simpa [Memory.read] using hr k) h.1.2
    | cons c' rest' =>
      obtain ⟨k', b'⟩ := c'
      simp only [Memory.wfFrom, Bool.and_eq_true, decide_eq_true_eq, bne_iff_ne] at h'
      have hk : k = k' := by
        rcases Nat.lt_trichotomy k k' with hlt | he | hlt
        · have := hr k
          rw [Memory.read, if_pos rfl, Memory.read, if_neg (by omega : k' ≠ k),
            Memory.read_of_lt_wfFrom h'.2 (by omega)] at this
          exact absurd this h.1.2
        · exact he
        · have := hr k'
          rw [Memory.read, if_neg (by omega : k ≠ k'), Memory.read_of_lt_wfFrom h.2 (by omega), Memory.read,
            if_pos rfl] at this
          exact absurd this.symm h'.1.2
      subst hk
      have hb : b = b' := by simpa [Memory.read] using hr k
      subst hb
      refine congrArg _ (ih h.2 h'.2 fun a => ?_)
      by_cases ha : k = a
      · subst ha
        rw [Memory.read_of_lt_wfFrom h.2 (by omega), Memory.read_of_lt_wfFrom h'.2 (by omega)]
      · have := hr a
        simpa only [Memory.read, if_neg ha] using this

end Sys2Proof.Machine
end

