-- ==== Sys2Proof/Laws/PerInstr.lean ====
section
/-! SUPPORT. Facts about every operation as syntax: its word matches its row of spec/opcode_table.json. -/

namespace Sys2Proof.Laws.TableRow

/-- The mask and the match of each operation's row, as spec/opcode_table.json gives them. -/
def row : Instr → Word × Word
  | .create => (0xFFFFFFFF#32, 0x00000001#32)
  | .reset => (0xFFFFFFFF#32, 0x00000002#32)
  | .encode => (0xFFFFFFFF#32, 0x00000003#32)
  | .destroy => (0xFFFFFFFF#32, 0x00000004#32)
  | .emitBit _ => (0xFFFFFFCF#32, 0x00000008#32)
  | .emitByte _ => (0xFFFF00FF#32, 0x00000009#32)
  | .phCutout => (0xFFFFFFFF#32, 0x0000000A#32)
  | .phSyncZero => (0xFFFFFFFF#32, 0x0000001A#32)
  | .phPreamble => (0xFFFFFFFF#32, 0x0000002A#32)
  | .phStart => (0xFFFFFFFF#32, 0x0000003A#32)
  | .phData => (0xFFFFFFFF#32, 0x0000004A#32)
  | .phEnd => (0xFFFFFFFF#32, 0x0000005A#32)

/-- Under its row's mask the operation's word is the row's match. -/
def Statement (i : Instr) : Prop := Sys2Proof.encode i &&& (row i).1 = (row i).2

theorem create : Statement .create := by unfold Statement; decide

theorem reset : Statement .reset := by unfold Statement; decide

theorem encode : Statement .encode := by unfold Statement; decide

theorem destroy : Statement .destroy := by unfold Statement; decide

theorem emitBit (sel : Sel) : Statement (.emitBit sel) := by
  unfold Statement; cases sel <;> decide

theorem emitByte (b : Byte) : Statement (.emitByte b) := by
  unfold Statement
  revert b
  decide

theorem phCutout : Statement .phCutout := by unfold Statement; decide

theorem phSyncZero : Statement .phSyncZero := by unfold Statement; decide

theorem phPreamble : Statement .phPreamble := by unfold Statement; decide

theorem phStart : Statement .phStart := by unfold Statement; decide

theorem phData : Statement .phData := by unfold Statement; decide

theorem phEnd : Statement .phEnd := by unfold Statement; decide

end Sys2Proof.Laws.TableRow
end

