-- ==== Sys2Proof/Laws/State.lean ====
section
/-! SUPPORT. Every field after every named update. `simp` reads each theorem as one rule per field. -/

namespace Sys2Proof.Machine

/-- The fields after the refusal (R206). -/
@[simp] theorem raise_fields (r : RefusalReason) (s : State) :
    (raise r s).created = s.created ∧ (raise r s).cfg = s.cfg ∧ (raise r s).cutoutEnabled = s.cutoutEnabled ∧
    (raise r s).sym = s.sym ∧ (raise r s).phase = s.phase ∧ (raise r s).progress = s.progress ∧
    (raise r s).byteIndex = s.byteIndex ∧ (raise r s).bitCursor = s.bitCursor ∧ (raise r s).cmd = s.cmd ∧
    (raise r s).cfgArgs = s.cfgArgs ∧ (raise r s).pktArgs = s.pktArgs ∧ (raise r s).resStatus = s.resStatus ∧
    (raise r s).resWritten = s.resWritten ∧ (raise r s).resState = s.resState ∧
    (raise r s).pktLatch = s.pktLatch ∧ (raise r s).refused = true ∧ (raise r s).refusedReason = some r ∧
    (raise r s).out = s.out ∧ (raise r s).opReturn = s.opReturn ∧ (raise r s).pending = s.pending ∧
    (raise r s).symDraws = s.symDraws ∧ (raise r s).allocDraws = s.allocDraws ∧
    (raise r s).freeTaken = s.freeTaken ∧ (raise r s).params = s.params :=
  ⟨rfl, rfl, rfl, rfl, rfl, rfl, rfl, rfl, rfl, rfl, rfl, rfl, rfl, rfl, rfl, rfl, rfl, rfl, rfl, rfl, rfl, rfl, rfl, rfl⟩

/-- The fields after an accepted symbol write (R55). -/
@[simp] theorem State.accepted_fields (y : Symbol) (s : State) :
    (s.accepted y).created = s.created ∧ (s.accepted y).cfg = s.cfg ∧
    (s.accepted y).cutoutEnabled = s.cutoutEnabled ∧ (s.accepted y).sym = s.sym ∧
    (s.accepted y).phase = s.phase ∧ (s.accepted y).progress = s.progress ∧
    (s.accepted y).byteIndex = s.byteIndex ∧ (s.accepted y).bitCursor = s.bitCursor ∧
    (s.accepted y).cmd = s.cmd ∧ (s.accepted y).cfgArgs = s.cfgArgs ∧ (s.accepted y).pktArgs = s.pktArgs ∧
    (s.accepted y).resStatus = s.resStatus ∧ (s.accepted y).resWritten = s.resWritten ∧
    (s.accepted y).resState = s.resState ∧ (s.accepted y).pktLatch = s.pktLatch ∧
    (s.accepted y).refused = s.refused ∧ (s.accepted y).refusedReason = s.refusedReason ∧
    (s.accepted y).out = s.out ++ [y] ∧ (s.accepted y).opReturn = s.opReturn ∧
    (s.accepted y).pending = s.pending ∧ (s.accepted y).symDraws = s.symDraws.rest ∧
    (s.accepted y).allocDraws = s.allocDraws ∧ (s.accepted y).freeTaken = s.freeTaken ∧
    (s.accepted y).params = s.params :=
  ⟨rfl, rfl, rfl, rfl, rfl, rfl, rfl, rfl, rfl, rfl, rfl, rfl, rfl, rfl, rfl, rfl, rfl, rfl, rfl, rfl, rfl, rfl, rfl, rfl⟩

/-- The fields after a refused symbol write (R55). -/
@[simp] theorem State.notAccepted_fields (s : State) :
    (s.notAccepted).created = s.created ∧ (s.notAccepted).cfg = s.cfg ∧
    (s.notAccepted).cutoutEnabled = s.cutoutEnabled ∧ (s.notAccepted).sym = s.sym ∧
    (s.notAccepted).phase = s.phase ∧ (s.notAccepted).progress = s.progress ∧
    (s.notAccepted).byteIndex = s.byteIndex ∧ (s.notAccepted).bitCursor = s.bitCursor ∧
    (s.notAccepted).cmd = s.cmd ∧ (s.notAccepted).cfgArgs = s.cfgArgs ∧ (s.notAccepted).pktArgs = s.pktArgs ∧
    (s.notAccepted).resStatus = s.resStatus ∧ (s.notAccepted).resWritten = s.resWritten ∧
    (s.notAccepted).resState = s.resState ∧ (s.notAccepted).pktLatch = s.pktLatch ∧
    (s.notAccepted).refused = s.refused ∧ (s.notAccepted).refusedReason = s.refusedReason ∧
    (s.notAccepted).out = s.out ∧ (s.notAccepted).opReturn = s.opReturn ∧ (s.notAccepted).pending = s.pending ∧
    (s.notAccepted).symDraws = s.symDraws.rest ∧ (s.notAccepted).allocDraws = s.allocDraws ∧
    (s.notAccepted).freeTaken = s.freeTaken ∧ (s.notAccepted).params = s.params :=
  ⟨rfl, rfl, rfl, rfl, rfl, rfl, rfl, rfl, rfl, rfl, rfl, rfl, rfl, rfl, rfl, rfl, rfl, rfl, rfl, rfl, rfl, rfl, rfl, rfl⟩

/-- The fields after a write of `bit_cursor` (R26). -/
@[simp] theorem State.withCursor_fields (v : BitVec 3) (s : State) :
    (s.withCursor v).created = s.created ∧ (s.withCursor v).cfg = s.cfg ∧
    (s.withCursor v).cutoutEnabled = s.cutoutEnabled ∧ (s.withCursor v).sym = s.sym ∧
    (s.withCursor v).phase = s.phase ∧ (s.withCursor v).progress = s.progress ∧
    (s.withCursor v).byteIndex = s.byteIndex ∧ (s.withCursor v).bitCursor = v ∧ (s.withCursor v).cmd = s.cmd ∧
    (s.withCursor v).cfgArgs = s.cfgArgs ∧ (s.withCursor v).pktArgs = s.pktArgs ∧
    (s.withCursor v).resStatus = s.resStatus ∧ (s.withCursor v).resWritten = s.resWritten ∧
    (s.withCursor v).resState = s.resState ∧ (s.withCursor v).pktLatch = s.pktLatch ∧
    (s.withCursor v).refused = s.refused ∧ (s.withCursor v).refusedReason = s.refusedReason ∧
    (s.withCursor v).out = s.out ∧ (s.withCursor v).opReturn = s.opReturn ∧
    (s.withCursor v).pending = s.pending ∧ (s.withCursor v).symDraws = s.symDraws ∧
    (s.withCursor v).allocDraws = s.allocDraws ∧ (s.withCursor v).freeTaken = s.freeTaken ∧
    (s.withCursor v).params = s.params :=
  ⟨rfl, rfl, rfl, rfl, rfl, rfl, rfl, rfl, rfl, rfl, rfl, rfl, rfl, rfl, rfl, rfl, rfl, rfl, rfl, rfl, rfl, rfl, rfl, rfl⟩

/-- The fields after an advance of `progress` (R24). -/
@[simp] theorem State.bump_fields (s : State) :
    (s.bump).created = s.created ∧ (s.bump).cfg = s.cfg ∧ (s.bump).cutoutEnabled = s.cutoutEnabled ∧
    (s.bump).sym = s.sym ∧ (s.bump).phase = s.phase ∧ (s.bump).progress = s.progress + 1 ∧
    (s.bump).byteIndex = s.byteIndex ∧ (s.bump).bitCursor = s.bitCursor ∧ (s.bump).cmd = s.cmd ∧
    (s.bump).cfgArgs = s.cfgArgs ∧ (s.bump).pktArgs = s.pktArgs ∧ (s.bump).resStatus = s.resStatus ∧
    (s.bump).resWritten = s.resWritten ∧ (s.bump).resState = s.resState ∧ (s.bump).pktLatch = s.pktLatch ∧
    (s.bump).refused = s.refused ∧ (s.bump).refusedReason = s.refusedReason ∧ (s.bump).out = s.out ∧
    (s.bump).opReturn = s.opReturn ∧ (s.bump).pending = s.pending ∧ (s.bump).symDraws = s.symDraws ∧
    (s.bump).allocDraws = s.allocDraws ∧ (s.bump).freeTaken = s.freeTaken ∧ (s.bump).params = s.params :=
  ⟨rfl, rfl, rfl, rfl, rfl, rfl, rfl, rfl, rfl, rfl, rfl, rfl, rfl, rfl, rfl, rfl, rfl, rfl, rfl, rfl, rfl, rfl, rfl, rfl⟩

/-- The fields after a phase transition (R23, R24). -/
@[simp] theorem State.toPhase_fields (p : Phase) (s : State) :
    (s.toPhase p).created = s.created ∧ (s.toPhase p).cfg = s.cfg ∧
    (s.toPhase p).cutoutEnabled = s.cutoutEnabled ∧ (s.toPhase p).sym = s.sym ∧ (s.toPhase p).phase = p ∧
    (s.toPhase p).progress = 0 ∧ (s.toPhase p).byteIndex = s.byteIndex ∧
    (s.toPhase p).bitCursor = s.bitCursor ∧ (s.toPhase p).cmd = s.cmd ∧ (s.toPhase p).cfgArgs = s.cfgArgs ∧
    (s.toPhase p).pktArgs = s.pktArgs ∧ (s.toPhase p).resStatus = s.resStatus ∧
    (s.toPhase p).resWritten = s.resWritten ∧ (s.toPhase p).resState = s.resState ∧
    (s.toPhase p).pktLatch = s.pktLatch ∧ (s.toPhase p).refused = s.refused ∧
    (s.toPhase p).refusedReason = s.refusedReason ∧ (s.toPhase p).out = s.out ∧
    (s.toPhase p).opReturn = s.opReturn ∧ (s.toPhase p).pending = s.pending ∧
    (s.toPhase p).symDraws = s.symDraws ∧ (s.toPhase p).allocDraws = s.allocDraws ∧
    (s.toPhase p).freeTaken = s.freeTaken ∧ (s.toPhase p).params = s.params :=
  ⟨rfl, rfl, rfl, rfl, rfl, rfl, rfl, rfl, rfl, rfl, rfl, rfl, rfl, rfl, rfl, rfl, rfl, rfl, rfl, rfl, rfl, rfl, rfl, rfl⟩

/-- The fields after an allocation draw (R181). -/
@[simp] theorem State.allocTaken_fields (s : State) :
    (s.allocTaken).created = s.created ∧ (s.allocTaken).cfg = s.cfg ∧
    (s.allocTaken).cutoutEnabled = s.cutoutEnabled ∧ (s.allocTaken).sym = s.sym ∧
    (s.allocTaken).phase = s.phase ∧ (s.allocTaken).progress = s.progress ∧
    (s.allocTaken).byteIndex = s.byteIndex ∧ (s.allocTaken).bitCursor = s.bitCursor ∧
    (s.allocTaken).cmd = s.cmd ∧ (s.allocTaken).cfgArgs = s.cfgArgs ∧ (s.allocTaken).pktArgs = s.pktArgs ∧
    (s.allocTaken).resStatus = s.resStatus ∧ (s.allocTaken).resWritten = s.resWritten ∧
    (s.allocTaken).resState = s.resState ∧ (s.allocTaken).pktLatch = s.pktLatch ∧
    (s.allocTaken).refused = s.refused ∧ (s.allocTaken).refusedReason = s.refusedReason ∧
    (s.allocTaken).out = s.out ∧ (s.allocTaken).opReturn = s.opReturn ∧ (s.allocTaken).pending = s.pending ∧
    (s.allocTaken).symDraws = s.symDraws ∧ (s.allocTaken).allocDraws = s.allocDraws.rest ∧
    (s.allocTaken).freeTaken = s.freeTaken ∧ (s.allocTaken).params = s.params :=
  ⟨rfl, rfl, rfl, rfl, rfl, rfl, rfl, rfl, rfl, rfl, rfl, rfl, rfl, rfl, rfl, rfl, rfl, rfl, rfl, rfl, rfl, rfl, rfl, rfl⟩

/-- The fields after the pair of an internal operation. -/
@[simp] theorem State.returned_fields (r : OpReturn) (s : State) :
    (s.returned r).created = s.created ∧ (s.returned r).cfg = s.cfg ∧
    (s.returned r).cutoutEnabled = s.cutoutEnabled ∧ (s.returned r).sym = s.sym ∧
    (s.returned r).phase = s.phase ∧ (s.returned r).progress = s.progress ∧
    (s.returned r).byteIndex = s.byteIndex ∧ (s.returned r).bitCursor = s.bitCursor ∧
    (s.returned r).cmd = s.cmd ∧ (s.returned r).cfgArgs = s.cfgArgs ∧ (s.returned r).pktArgs = s.pktArgs ∧
    (s.returned r).resStatus = s.resStatus ∧ (s.returned r).resWritten = s.resWritten ∧
    (s.returned r).resState = s.resState ∧ (s.returned r).pktLatch = s.pktLatch ∧
    (s.returned r).refused = s.refused ∧ (s.returned r).refusedReason = s.refusedReason ∧
    (s.returned r).out = s.out ∧ (s.returned r).opReturn = some r ∧ (s.returned r).pending = s.pending ∧
    (s.returned r).symDraws = s.symDraws ∧ (s.returned r).allocDraws = s.allocDraws ∧
    (s.returned r).freeTaken = s.freeTaken ∧ (s.returned r).params = s.params :=
  ⟨rfl, rfl, rfl, rfl, rfl, rfl, rfl, rfl, rfl, rfl, rfl, rfl, rfl, rfl, rfl, rfl, rfl, rfl, rfl, rfl, rfl, rfl, rfl, rfl⟩

/-- The fields after ENCODE's results (R33). -/
@[simp] theorem State.report_fields (n : Nat) (v : BitVec 2) (s : State) :
    (s.report n v).created = s.created ∧ (s.report n v).cfg = s.cfg ∧
    (s.report n v).cutoutEnabled = s.cutoutEnabled ∧ (s.report n v).sym = s.sym ∧
    (s.report n v).phase = s.phase ∧ (s.report n v).progress = s.progress ∧
    (s.report n v).byteIndex = s.byteIndex ∧ (s.report n v).bitCursor = s.bitCursor ∧
    (s.report n v).cmd = s.cmd ∧ (s.report n v).cfgArgs = s.cfgArgs ∧ (s.report n v).pktArgs = s.pktArgs ∧
    (s.report n v).resStatus = s.resStatus ∧ (s.report n v).resWritten = BitVec.ofNat 32 n ∧
    (s.report n v).resState = v ∧ (s.report n v).pktLatch = s.pktLatch ∧ (s.report n v).refused = s.refused ∧
    (s.report n v).refusedReason = s.refusedReason ∧ (s.report n v).out = s.out ∧
    (s.report n v).opReturn = s.opReturn ∧ (s.report n v).pending = s.pending ∧
    (s.report n v).symDraws = s.symDraws ∧ (s.report n v).allocDraws = s.allocDraws ∧
    (s.report n v).freeTaken = s.freeTaken ∧ (s.report n v).params = s.params :=
  ⟨rfl, rfl, rfl, rfl, rfl, rfl, rfl, rfl, rfl, rfl, rfl, rfl, rfl, rfl, rfl, rfl, rfl, rfl, rfl, rfl, rfl, rfl, rfl, rfl⟩

/-- The fields after the end of a packet cycle (R141). -/
@[simp] theorem State.unlatched_fields (s : State) :
    (s.unlatched).created = s.created ∧ (s.unlatched).cfg = s.cfg ∧
    (s.unlatched).cutoutEnabled = s.cutoutEnabled ∧ (s.unlatched).sym = s.sym ∧ (s.unlatched).phase = s.phase ∧
    (s.unlatched).progress = s.progress ∧ (s.unlatched).byteIndex = s.byteIndex ∧
    (s.unlatched).bitCursor = s.bitCursor ∧ (s.unlatched).cmd = s.cmd ∧ (s.unlatched).cfgArgs = s.cfgArgs ∧
    (s.unlatched).pktArgs = s.pktArgs ∧ (s.unlatched).resStatus = s.resStatus ∧
    (s.unlatched).resWritten = s.resWritten ∧ (s.unlatched).resState = s.resState ∧
    (s.unlatched).pktLatch = none ∧ (s.unlatched).refused = s.refused ∧
    (s.unlatched).refusedReason = s.refusedReason ∧ (s.unlatched).out = s.out ∧
    (s.unlatched).opReturn = s.opReturn ∧ (s.unlatched).pending = s.pending ∧
    (s.unlatched).symDraws = s.symDraws ∧ (s.unlatched).allocDraws = s.allocDraws ∧
    (s.unlatched).freeTaken = s.freeTaken ∧ (s.unlatched).params = s.params :=
  ⟨rfl, rfl, rfl, rfl, rfl, rfl, rfl, rfl, rfl, rfl, rfl, rfl, rfl, rfl, rfl, rfl, rfl, rfl, rfl, rfl, rfl, rfl, rfl, rfl⟩

/-- The fields after CREATE's status (R33). -/
@[simp] theorem State.withStatus_fields (v : BitVec 2) (s : State) :
    (s.withStatus v).created = s.created ∧ (s.withStatus v).cfg = s.cfg ∧
    (s.withStatus v).cutoutEnabled = s.cutoutEnabled ∧ (s.withStatus v).sym = s.sym ∧
    (s.withStatus v).phase = s.phase ∧ (s.withStatus v).progress = s.progress ∧
    (s.withStatus v).byteIndex = s.byteIndex ∧ (s.withStatus v).bitCursor = s.bitCursor ∧
    (s.withStatus v).cmd = s.cmd ∧ (s.withStatus v).cfgArgs = s.cfgArgs ∧
    (s.withStatus v).pktArgs = s.pktArgs ∧ (s.withStatus v).resStatus = v ∧
    (s.withStatus v).resWritten = s.resWritten ∧ (s.withStatus v).resState = s.resState ∧
    (s.withStatus v).pktLatch = s.pktLatch ∧ (s.withStatus v).refused = s.refused ∧
    (s.withStatus v).refusedReason = s.refusedReason ∧ (s.withStatus v).out = s.out ∧
    (s.withStatus v).opReturn = s.opReturn ∧ (s.withStatus v).pending = s.pending ∧
    (s.withStatus v).symDraws = s.symDraws ∧ (s.withStatus v).allocDraws = s.allocDraws ∧
    (s.withStatus v).freeTaken = s.freeTaken ∧ (s.withStatus v).params = s.params :=
  ⟨rfl, rfl, rfl, rfl, rfl, rfl, rfl, rfl, rfl, rfl, rfl, rfl, rfl, rfl, rfl, rfl, rfl, rfl, rfl, rfl, rfl, rfl, rfl, rfl⟩

/-- The fields after the start of a packet (R231). -/
@[simp] theorem State.packetStart_fields (s : State) :
    (s.packetStart).created = s.created ∧ (s.packetStart).cfg = s.cfg ∧
    (s.packetStart).cutoutEnabled = s.cutoutEnabled ∧ (s.packetStart).sym = s.sym ∧
    (s.packetStart).phase = .syncZero ∧ (s.packetStart).progress = 0 ∧ (s.packetStart).byteIndex = 0 ∧
    (s.packetStart).bitCursor = 0 ∧ (s.packetStart).cmd = s.cmd ∧ (s.packetStart).cfgArgs = s.cfgArgs ∧
    (s.packetStart).pktArgs = s.pktArgs ∧ (s.packetStart).resStatus = s.resStatus ∧
    (s.packetStart).resWritten = s.resWritten ∧ (s.packetStart).resState = s.resState ∧
    (s.packetStart).pktLatch = none ∧ (s.packetStart).refused = s.refused ∧
    (s.packetStart).refusedReason = s.refusedReason ∧ (s.packetStart).out = s.out ∧
    (s.packetStart).opReturn = s.opReturn ∧ (s.packetStart).pending = s.pending ∧
    (s.packetStart).symDraws = s.symDraws ∧ (s.packetStart).allocDraws = s.allocDraws ∧
    (s.packetStart).freeTaken = s.freeTaken ∧ (s.packetStart).params = s.params :=
  ⟨rfl, rfl, rfl, rfl, rfl, rfl, rfl, rfl, rfl, rfl, rfl, rfl, rfl, rfl, rfl, rfl, rfl, rfl, rfl, rfl, rfl, rfl, rfl, rfl⟩

/-- The fields after the configuration of a CREATE (R180). -/
@[simp] theorem State.configured_fields (c : Cfg) (s : State) :
    (s.configured c).created = s.created ∧ (s.configured c).cfg = c ∧
    (s.configured c).cutoutEnabled = c.cutoutFlag ∧ (s.configured c).sym = derive s.params.endSymbolForm c ∧
    (s.configured c).phase = s.phase ∧ (s.configured c).progress = s.progress ∧
    (s.configured c).byteIndex = s.byteIndex ∧ (s.configured c).bitCursor = s.bitCursor ∧
    (s.configured c).cmd = s.cmd ∧ (s.configured c).cfgArgs = s.cfgArgs ∧
    (s.configured c).pktArgs = s.pktArgs ∧ (s.configured c).resStatus = s.resStatus ∧
    (s.configured c).resWritten = s.resWritten ∧ (s.configured c).resState = s.resState ∧
    (s.configured c).pktLatch = s.pktLatch ∧ (s.configured c).refused = s.refused ∧
    (s.configured c).refusedReason = s.refusedReason ∧ (s.configured c).out = s.out ∧
    (s.configured c).opReturn = s.opReturn ∧ (s.configured c).pending = s.pending ∧
    (s.configured c).symDraws = s.symDraws ∧ (s.configured c).allocDraws = s.allocDraws ∧
    (s.configured c).freeTaken = s.freeTaken ∧ (s.configured c).params = s.params :=
  ⟨rfl, rfl, rfl, rfl, rfl, rfl, rfl, rfl, rfl, rfl, rfl, rfl, rfl, rfl, rfl, rfl, rfl, rfl, rfl, rfl, rfl, rfl, rfl, rfl⟩

/-- The fields after what DESTROY leaves unspecified (R190). -/
@[simp] theorem State.unspecifiedRegs_fields (u : InstanceRegs) (s : State) :
    (s.unspecifiedRegs u).created = s.created ∧ (s.unspecifiedRegs u).cfg = u.cfg ∧
    (s.unspecifiedRegs u).cutoutEnabled = u.cutoutEnabled ∧ (s.unspecifiedRegs u).sym = u.sym ∧
    (s.unspecifiedRegs u).phase = u.phase ∧ (s.unspecifiedRegs u).progress = u.progress ∧
    (s.unspecifiedRegs u).byteIndex = u.byteIndex ∧ (s.unspecifiedRegs u).bitCursor = u.bitCursor ∧
    (s.unspecifiedRegs u).cmd = s.cmd ∧ (s.unspecifiedRegs u).cfgArgs = s.cfgArgs ∧
    (s.unspecifiedRegs u).pktArgs = s.pktArgs ∧ (s.unspecifiedRegs u).resStatus = s.resStatus ∧
    (s.unspecifiedRegs u).resWritten = s.resWritten ∧ (s.unspecifiedRegs u).resState = s.resState ∧
    (s.unspecifiedRegs u).pktLatch = s.pktLatch ∧ (s.unspecifiedRegs u).refused = s.refused ∧
    (s.unspecifiedRegs u).refusedReason = s.refusedReason ∧ (s.unspecifiedRegs u).out = s.out ∧
    (s.unspecifiedRegs u).opReturn = s.opReturn ∧ (s.unspecifiedRegs u).pending = s.pending ∧
    (s.unspecifiedRegs u).symDraws = s.symDraws ∧ (s.unspecifiedRegs u).allocDraws = s.allocDraws ∧
    (s.unspecifiedRegs u).freeTaken = s.freeTaken + 1 ∧ (s.unspecifiedRegs u).params = s.params :=
  ⟨rfl, rfl, rfl, rfl, rfl, rfl, rfl, rfl, rfl, rfl, rfl, rfl, rfl, rfl, rfl, rfl, rfl, rfl, rfl, rfl, rfl, rfl, rfl, rfl⟩

/-- The fields after the host's register writes (R70). -/
@[simp] theorem State.load_fields (q : Issue) (s : State) :
    (State.load q s).created = s.created ∧ (State.load q s).cfg = s.cfg ∧
    (State.load q s).cutoutEnabled = s.cutoutEnabled ∧ (State.load q s).sym = s.sym ∧
    (State.load q s).phase = s.phase ∧ (State.load q s).progress = s.progress ∧
    (State.load q s).byteIndex = s.byteIndex ∧ (State.load q s).bitCursor = s.bitCursor ∧
    (State.load q s).cfgArgs = q.cfgArgs.getD s.cfgArgs ∧ (State.load q s).pktArgs = q.pktArgs.getD s.pktArgs ∧
    (State.load q s).resStatus = s.resStatus ∧ (State.load q s).resWritten = s.resWritten ∧
    (State.load q s).resState = s.resState ∧ (State.load q s).pktLatch = s.pktLatch ∧
    (State.load q s).refused = s.refused ∧ (State.load q s).refusedReason = s.refusedReason ∧
    (State.load q s).out = s.out ∧ (State.load q s).opReturn = s.opReturn ∧
    (State.load q s).pending = s.pending ∧ (State.load q s).symDraws = s.symDraws ∧
    (State.load q s).allocDraws = s.allocDraws ∧ (State.load q s).freeTaken = s.freeTaken ∧
    (State.load q s).params = s.params :=
  ⟨rfl, rfl, rfl, rfl, rfl, rfl, rfl, rfl, rfl, rfl, rfl, rfl, rfl, rfl, rfl, rfl, rfl, rfl, rfl, rfl, rfl, rfl, rfl⟩

/-- `CMD` after the host's register writes: an internal word is not written to it (R70, R83). -/
@[simp] theorem State.load_cmd (q : Issue) (s : State) :
    (State.load q s).cmd = match q.port with
      | .host => q.word
      | .sequencer => s.cmd := rfl

/-- The latch after the start of an ENCODE (R141); nothing else changes. -/
theorem State.latched_eq (s : State) : s.latched = { s with pktLatch := some (s.pktLatch.getD s.packet) } := by
  cases s with
  | mk _ _ _ _ _ _ _ _ _ _ _ _ _ _ pktLatch => cases pktLatch <;> rfl

@[simp] theorem State.latched_pktLatch (s : State) : s.latched.pktLatch = some (s.pktLatch.getD s.packet) := by
  rw [State.latched_eq]

/-- A successful CREATE, in terms of the named updates (R180). -/
theorem State.constructed_eq (s : State) :
    s.constructed = { (s.configured s.cfgArgs.toCfg).packetStart with created := true, resStatus := statusOk } := rfl

/-- DESTROY, in terms of the named updates (R190). -/
theorem State.destroyed_eq (s : State) :
    s.destroyed = { s.unspecifiedRegs (Config.unspecified s.freeTaken) with created := false, pktLatch := none } := rfl

/-- What the fetch does to the waiting operations (R70): the oldest is taken when it decodes. -/
theorem fetch_run {s : State} {q : Issue} {rest : List Issue} {i : Instr} (hp : s.pending = q :: rest)
    (hd : decodeAt q.port q.word = .ok i) : fetch s = .run i (State.load q { s with pending := rest }) := by
  simp only [fetch, hp, hd]

/-- A command word that spells no command (R73). -/
theorem fetch_reserved {s : State} {q : Issue} {rest : List Issue} {e : DecodeError} (hp : s.pending = q :: rest)
    (hh : q.port = .host) (hd : decodeHost q.word = .error e) :
    fetch s = .reserved (State.load q { s with pending := rest }) := by
  simp only [fetch, hp, hh, decodeAt, hd]

/-- No command waits (R218). -/
theorem fetch_idle {s : State} (hp : s.pending = []) : fetch s = .idle := by
  simp only [fetch, hp]

end Sys2Proof.Machine
end

