-- ==== Sys2Proof/Tests/Slice0.lean ====
section
/-! SUPPORT. Tests of single steps, with the expected results of spec/95_test_vectors.md, and one witness for the
hypotheses of each statement of Sys2Proof/Certificates/Slice0/Obligations.lean. -/

namespace Sys2Proof.Tests

open Sys2Proof.Machine

/-! ### Well-formedness: the ill-formed terms -/

/-- The host cannot issue an internal operation (R83). -/
theorem test_wellFormed_host_refuses_emitter : (Instr.emitBit .one).wellFormedAt .host = false := by decide

theorem test_wellFormed_host_refuses_phase_handler : Instr.phEnd.wellFormedAt .host = false := by decide

/-- A host command is no internal operation. -/
theorem test_wellFormed_sequencer_refuses_command : Instr.create.wellFormedAt .sequencer = false := by decide

/-! ### Decoding: words written out from R72 and R83 -/

theorem test_decode_create : decodeHost 0x00000001#32 = .ok .create := by decide
theorem test_decode_reset : decodeHost 0x00000002#32 = .ok .reset := by decide
theorem test_decode_encode : decodeHost 0x00000003#32 = .ok .encode := by decide
theorem test_decode_destroy : decodeHost 0x00000004#32 = .ok .destroy := by decide

/-- B1 to B4 of spec/95_test_vectors.md. -/
theorem test_decode_emit_bit :
    decodeInternal 0x00000008#32 = .ok (.emitBit .one) ∧ decodeInternal 0x00000018#32 = .ok (.emitBit .zero) ∧
    decodeInternal 0x00000028#32 = .ok (.emitBit .endBit) ∧ decodeInternal 0x00000038#32 = .ok (.emitBit .cutout) := by
  decide

/-- Y3, Y5 and Y6 of spec/95_test_vectors.md. -/
theorem test_decode_emit_byte :
    decodeInternal 0x0000FF09#32 = .ok (.emitByte 0xFF#8) ∧ decodeInternal 0x00001209#32 = .ok (.emitByte 0x12#8) ∧
    decodeInternal 0x00008009#32 = .ok (.emitByte 0x80#8) := by decide

theorem test_decode_phases :
    decodeInternal 0x0000000A#32 = .ok .phCutout ∧ decodeInternal 0x0000001A#32 = .ok .phSyncZero ∧
    decodeInternal 0x0000002A#32 = .ok .phPreamble ∧ decodeInternal 0x0000003A#32 = .ok .phStart ∧
    decodeInternal 0x0000004A#32 = .ok .phData ∧ decodeInternal 0x0000005A#32 = .ok .phEnd := by decide

/-- `PH` of 6 and 7, and set bits outside the fields, are never formed (R83). -/
theorem test_decode_never_formed :
    decodeInternal 0x0000006A#32 = .error .neverFormed ∧ decodeInternal 0x0000007A#32 = .error .neverFormed ∧
    decodeInternal 0x00000048#32 = .error .neverFormed ∧ decodeInternal 0x0001FF09#32 = .error .neverFormed ∧
    decodeInternal 0x0000FF19#32 = .error .neverFormed := by decide

theorem test_decodeTableWord : decodeTableWord 32 0x3 = some .encode ∧ decodeTableWord 32 0x5A = some .phEnd ∧
    decodeTableWord 32 0x13 = none ∧ decodeTableWord 32 (2 ^ 32 + 1) = none := by decide

/-! ### The states of the tests -/

/-- The argument registers of configurations A and B (section 0 of the vectors). -/
def argsA : CfgArgs := ⟨true, 14, 58, 100, 0, 0, 1⟩
def argsB : CfgArgs := ⟨true, 14, 58, 100, 60, 59, 2⟩

/-- Power-on under profile P0, the buffer answering `room` and the allocation answering `alloc`. -/
def off (a : CfgArgs) (room alloc : List Bool) : State :=
  { State.resetWith Config.profileP0 with cfgArgs := a, symDraws := ⟨room, 0⟩, allocDraws := ⟨alloc, 0⟩ }

/-- Just after a CREATE of configuration `a`, with the packet `pkt` in the argument registers. -/
def fresh (a : CfgArgs) (pkt : List Byte) (room : List Bool) : State :=
  { (off a room []).constructed with
    pktArgs := ⟨true, BitVec.ofNat 32 pkt.length, Memory.ofBytes pkt⟩ }

/-- The same inside the cycle of `pkt`, at the given position. -/
def inside (a : CfgArgs) (pkt : List Byte) (room : List Bool) (p : Phase) (progress : BitVec 8) (index : BitVec 32)
    (cursor : BitVec 3) : State :=
  { fresh a pkt room with
    phase := p, progress := progress, byteIndex := index, bitCursor := cursor, pktLatch := some pkt }

/-- With one word waiting in `CMD`. -/
def commanded (s : State) (w : Word) : State := { s with pending := [⟨.host, none, none, w⟩] }

/-- What a next state shows. -/
def seen {α : Type} (o : Host.Outcome State Fault Refusal) (f : State → α) : Option α :=
  match o with
  | .next t => some (f t)
  | _ => none

theorem next_of_seen {α : Type} {o : Host.Outcome State Fault Refusal} {f : State → α} {a : α}
    (h : seen o f = some a) : ∃ t, o = .next t ∧ f t = a := by
  cases o <;> simp_all [seen]

/-- `(phase, [progress, byte_index, bit_cursor])` -/
def pos (s : State) : Phase × List Nat := (s.phase, [s.progress.toNat, s.byteIndex.toNat, s.bitCursor.toNat])

/-- The symbol words written. -/
def words (s : State) : List Word := s.out.map Symbol.word

/-! ### The host commands -/

/-- V10 -/
theorem test_create_at_bound : seen (exec .create (off { argsA with bit1 := 55 } [] [true]))
    (fun t => (t.resStatus, t.created, t.sym.one.word, pos t)) =
      some (0, true, 0x00378037#32, (.syncZero, [0, 0, 0])) := by decide

/-- V8 -/
theorem test_create_no_truncation : seen (exec .create (off { argsA with preamble := 270 } [] [true]))
    (fun t => (t.resStatus, t.created)) = some (1, false) := by decide

/-- L2 -/
theorem test_reset_mid_packet : seen (exec .reset (inside argsA [0xA5#8] [] .data 0 0 5))
    (fun t => (pos t, t.pktLatch)) = some ((.syncZero, [0, 0, 0]), none) := by decide

/-- L1 -/
theorem test_reset_refused : seen (exec .reset (off argsA [] []))
    (fun t => (t.refused, t.refusedReason)) = some (true, some .notCreated) := by decide

/-- E15, E16: after three of the four cutout symbols, the rest of a 29-symbol cycle (26 symbols). -/
theorem test_encode_resumes_in_cutout :
    seen (exec .encode (inside argsB [0xFF#8] (List.replicate 26 true) .cutout 3 0 0))
      (fun t => (t.resWritten, t.resState, pos t)) = some (26, 1, (.cutout, [0, 0, 0])) := by decide

/-- The last 15 symbols of W1 with room for 14: five of the preamble, the start, eight data bits (R147 (c)). -/
theorem test_encode_one_short :
    seen (exec .encode (inside argsA [0xFF#8] (room 14) .preamble 9 0 0))
      (fun t => (t.resWritten, t.resState, pos t)) = some (14, 2, (.endBit, [0, 1, 0])) := by decide

/-- L7 -/
theorem test_destroy : seen (exec .destroy (inside argsA [0xA5#8] [] .data 0 0 5))
    (fun t => (t.created, t.pktLatch)) = some (false, none) := by decide

/-- L6 -/
theorem test_destroy_refused : seen (exec .destroy (off argsA [] []))
    (fun t => (t.refused, t.refusedReason)) = some (true, some .notCreated) := by decide

/-- L12 and L13: a reserved word is refused before every other check. -/
theorem test_reserved_command_words :
    seen (step (commanded (off argsA [] []) 0x13)) (fun t => t.refusedReason) = some (some .reservedEncoding) ∧
    seen (step (commanded (off argsA [] []) 0x8)) (fun t => t.refusedReason) = some (some .reservedEncoding) := by
  decide

/-! ### The emitters -/

/-- B4 -/
theorem test_emit_bit_cutout : seen (exec (.emitBit .cutout) (fresh argsB [] [true]))
    (fun t => (words t, t.opReturn)) = some ([0x803B003B#32], some (.emit 1 .complete)) := by decide

/-- B5 -/
theorem test_emit_bit_full : seen (exec (.emitBit .one) (fresh argsB [] [false]))
    (fun t => (words t, t.opReturn)) = some ([], some (.emit 0 .full)) := by decide

/-- Y1 -/
theorem test_emit_byte_suspends : seen (exec (.emitByte 0xA5#8) (fresh argsA [] (room 3)))
    (fun t => (words t, t.opReturn, t.bitCursor)) =
      some ([0x003A803A#32, 0x00648064#32, 0x003A803A#32], some (.emit 3 .full), 3) := by decide

/-- Y8 -/
theorem test_emit_byte_last_bit : seen (exec (.emitByte 0x01#8) (inside argsA [] (room 1) .data 0 0 7))
    (fun t => (words t, t.opReturn, t.bitCursor)) = some ([0x003A803A#32], some (.emit 1 .complete), 0) := by decide

/-! ### The phase handlers -/

/-- H5 -/
theorem test_cutout_resumes : seen (exec .phCutout (inside argsB [0#8] (room 5) .cutout 2 0 0))
    (fun t => (words t, t.opReturn, pos t)) =
      some ([0x803B003B#32, 0x803B003B#32], some (.phase 2 .next), (.syncZero, [0, 0, 0])) := by decide

/-- H6 -/
theorem test_cutout_disabled : seen (exec .phCutout (inside argsA [0#8] (room 0) .cutout 0 0 0))
    (fun t => (words t, t.opReturn, pos t)) = some ([], some (.phase 0 .next), (.syncZero, [0, 0, 0])) := by decide

/-- H7 -/
theorem test_sync_zero : seen (exec .phSyncZero (inside argsB [0#8] (room 1) .syncZero 0 0 0))
    (fun t => (words t, t.opReturn, pos t)) =
      some ([0x80640064#32], some (.phase 1 .next), (.preamble, [0, 0, 0])) := by decide

/-- H8 -/
theorem test_sync_zero_full : seen (exec .phSyncZero (inside argsB [0#8] (room 0) .syncZero 0 0 0))
    (fun t => (words t, t.opReturn, pos t)) = some ([], some (.phase 0 .full), (.syncZero, [0, 0, 0])) := by decide

/-- H12 -/
theorem test_preamble_resumes : seen (exec .phPreamble (inside argsA [0#8] (room 10) .preamble 9 0 0))
    (fun t => ((words t).length, t.opReturn, pos t)) = some (5, some (.phase 5 .next), (.start, [0, 0, 0])) := by decide

/-- H13 -/
theorem test_preamble_full : seen (exec .phPreamble (inside argsA [0#8] (room 0) .preamble 13 0 0))
    (fun t => (words t, t.opReturn, pos t)) = some ([], some (.phase 0 .full), (.preamble, [13, 0, 0])) := by decide

/-- H15 -/
theorem test_start : seen (exec .phStart (inside argsA [0#8, 1#8] (room 1) .start 0 1 0))
    (fun t => (words t, t.opReturn, pos t)) = some ([0x00648064#32], some (.phase 1 .next), (.data, [0, 1, 0])) := by
  decide

/-- H16 -/
theorem test_start_full : seen (exec .phStart (inside argsA [0#8] (room 0) .start 0 0 0))
    (fun t => (words t, t.opReturn, pos t)) = some ([], some (.phase 0 .full), (.start, [0, 0, 0])) := by decide

/-- H18: ZERO, ZERO, ONE, ONE, ZERO, ONE, ZERO, ZERO -/
theorem test_data_last_byte : seen (exec .phData (inside argsA [0x12#8, 0x34#8] (room 20) .data 0 1 0))
    (fun t => ((words t).map (· == 0x003A803A#32), t.opReturn, pos t)) =
      some ([false, false, true, true, false, true, false, false], some (.phase 8 .next), (.endBit, [0, 2, 0])) := by
  decide

/-- H19 -/
theorem test_data_resumes : seen (exec .phData (inside argsA [0xA5#8] (room 2) .data 0 0 3))
    (fun t => (words t, t.opReturn, pos t)) =
      some ([0x00648064#32, 0x00648064#32], some (.phase 2 .full), (.data, [0, 0, 5])) := by decide

/-- H22, with the end symbol of configuration B -/
theorem test_end : seen (exec .phEnd (inside argsB [0#8, 1#8] (room 1) .endBit 0 2 0))
    (fun t => (words t, t.opReturn, pos t)) = some ([0x803C003C#32], some (.phase 1 .done), (.cutout, [0, 0, 0])) := by
  decide

/-- H23 -/
theorem test_end_full : seen (exec .phEnd (inside argsB [0#8, 1#8] (room 0) .endBit 0 2 0))
    (fun t => (words t, t.opReturn, pos t)) = some ([], some (.phase 0 .full), (.endBit, [0, 2, 0])) := by decide

/-! ### Helpers -/

/-- S6, S7 and S9 -/
theorem test_derived_words :
    (derive .bothHalves argsB.toCfg).endBit.word = 0x803C003C#32 ∧
    (derive .secondHalfOnly argsB.toCfg).endBit.word = 0x803C003A#32 ∧
    (derive .bothHalves argsA.toCfg).cutout.word = 0x00008000#32 := by decide

/-- The phase codes of R80. -/
theorem test_phase_codes :
    ([.cutout, .syncZero, .preamble, .start, .data, .endBit].map Phase.code : List (BitVec 3)) = [0, 1, 2, 3, 4, 5] := by
  decide

/-- W7: the reader on the first cycle of configuration B with packet A5. -/
theorem test_read_back :
    readStream argsB.toCfg true (derive .bothHalves argsB.toCfg) true
      ((derive .bothHalves argsB.toCfg).symbols (stream argsB.toCfg true [0xA5#8] true)) = [0xA5#8] := by decide

/-- The canonical form of the packet space: a 0 written removes the entry. -/
theorem test_memory_write : Memory.write [(1, 7#8), (3, 9#8)] 2 5#8 = [(1, 7#8), (2, 5#8), (3, 9#8)] ∧
    Memory.write [(1, 7#8), (3, 9#8)] 3 0#8 = [(1, 7#8)] ∧ Memory.read [(1, 7#8), (3, 9#8)] 2 = 0#8 := by decide

/-! ### Witnesses: the invariants -/

theorem p0_legal : Config.profileP0.Legal := by decide

/-- P2 after its line 2: configuration B, `(Preamble, 9, 0, 0)`, packet A5 latched, with `room` ahead. -/
def midB (room : List Bool) : State := inside argsB [0xA5#8] room .preamble 9 0 0

theorem midB_inv (room : List Bool) : (midB room).Inv := by
  refine ⟨p0_legal, fun _ => ⟨⟨?_, ?_, ?_, ?_, ?_⟩, rfl, rfl⟩, fun _ => ⟨?_, ?_, ?_, ?_, ?_, ?_⟩, fun h => by cases h⟩
  · exact (by decide : 14 ≤ 14 ∧ 14 ≤ 30)
  · exact (by decide : 55 ≤ 58 ∧ 58 ≤ 61)
  · exact (by decide : 95 ≤ 100 ∧ 100 ≤ 9900)
  · exact (by decide : 60 ≤ 61)
  · exact Or.inr (by decide : 57 ≤ 59 ∧ 59 ≤ 61)
  · exact Or.inl (by decide : 9 < 14)
  · intro h; rcases h with h | h | h <;> cases h
  · exact fun _ => rfl
  · exact fun _ => rfl
  · intro h; cases h
  · intro pkt h
    cases h
    exact ⟨(by decide : 1 ≤ 1 ∧ 1 ≤ 477218559), fun h => (by rcases h with h | h <;> cases h), fun h => (by cases h)⟩

theorem midB_accepted (room : List Bool) : (midB room).EncodeAccepted :=
  ⟨rfl, rfl, (by decide : 1 ≤ 1 ∧ 1 ≤ 477218559), Or.inr rfl⟩

/-- Configuration B just after CREATE: the start of a cycle. -/
theorem freshB_inv (room : List Bool) : (fresh argsB [0xA5#8] room).Inv := by
  have hc := (midB_inv room).config rfl
  refine ⟨p0_legal, fun _ => ⟨hc.legal, hc.flag, hc.table⟩, fun _ => ⟨Or.inr rfl, fun _ => rfl, fun _ => rfl, fun _ => rfl, ?_, ?_⟩,
    fun h => by cases h⟩
  · exact fun _ => ⟨Or.inr rfl, rfl⟩
  · intro pkt h; cases h

theorem freshB_accepted (room : List Bool) : (fresh argsB [0xA5#8] room).EncodeAccepted :=
  ⟨rfl, rfl, (by decide : 1 ≤ 1 ∧ 1 ≤ 477218559), Or.inl rfl⟩

theorem freshB_start (room : List Bool) : (fresh argsB [0xA5#8] room).atCycleStart := ⟨rfl, rfl⟩

/-- A full and a complete ENCODE from P2 after its line 2 (15 symbols remain). -/
theorem midB_full : seen (exec .encode (midB (room 10))) (fun t => (t.resState, t.resWritten)) = some (2, 10) := by
  decide

theorem midB_complete : seen (exec .encode (midB (room 15))) (fun t => (t.resState, t.resWritten)) = some (1, 15) := by
  decide

/-! ### Witnesses: encoding and the step -/

theorem witness_DecodeOfEncode : Instr.create.wellFormedAt .host = true ∧
    (Instr.emitByte 0xFF#8).wellFormedAt .sequencer = true := by decide

theorem witness_DecodedWord : decodeAt .host 0x4#32 = .ok .destroy ∧
    decodeAt .sequencer 0x0000FF09#32 = .ok (.emitByte 0xFF#8) := by decide

theorem witness_CommandRegister : decodeInternal 0x5A#32 = .ok .phEnd := by decide

theorem witness_StepRuns :
    ((commanded State.reset 0x3).pending = [⟨.host, none, none, 0x3⟩] ∧ decodeAt .host 0x3#32 = .ok .encode) ∧
    ∃ s : State, s.pending = [⟨.sequencer, none, none, 0x38⟩] ∧ decodeAt .sequencer 0x38#32 = .ok (.emitBit .cutout) :=
  ⟨⟨rfl, by decide⟩, { State.reset with pending := [⟨.sequencer, none, none, 0x38⟩] }, rfl, by decide⟩

theorem witness_IdleStep : State.reset.pending = [] := rfl

/-- `RSV` nonzero; `OP` 0, 5 and 15. -/
theorem witness_ReservedCommandWord :
    (commanded State.reset 0x13).pending = [⟨.host, none, none, 0x13⟩] ∧ (0x13#32).extractLsb' 4 28 ≠ 0 ∧
    (0x0#32).extractLsb' 0 4 = 0 ∧ 5 ≤ ((0x5#32).extractLsb' 0 4).toNat ∧ 5 ≤ ((0xF#32).extractLsb' 0 4).toNat :=
  ⟨rfl, by decide⟩

theorem witness_InternalWordInCommandRegister : Instr.phEnd.hostIssuable = false ∧
    (commanded State.reset 0x5A).pending = [⟨.host, none, none, 0x5A⟩] ∧ encode .phEnd = 0x5A#32 :=
  ⟨rfl, rfl, by decide⟩

/-! ### Witnesses: lifecycle -/

theorem witness_Created : (fresh argsB [0xA5#8] []).created = true ∧ (off argsB [] []).created = false := ⟨rfl, rfl⟩

theorem witness_AbsentConfiguration : (off { argsA with present := false } [] []).created = false ∧
    (off { argsA with present := false } [] []).cfgArgs.present = false := ⟨rfl, rfl⟩

/-- V28, V29 and V3: the lowest reserved flag bit and the highest, present and absent. -/
theorem witness_ReservedFlags : (off { argsA with flags := 0x4 } [] []).created = false ∧ argsA.present = true ∧
    (0x4#32).extractLsb' 2 30 ≠ 0 ∧ (0x80000001#32).extractLsb' 2 30 ≠ 0 ∧
    (off { argsA with present := false, flags := 0x4 } [] []).cfgArgs.present = false := by decide

/-- V4, V7, V9, V12, V14, V17, V20, V22 and V25: one past every bound. -/
theorem witness_InvalidConfiguration : argsA.present = true ∧ argsA.flags.extractLsb' 2 30 = 0 ∧
    (∀ a ∈ [{ argsA with preamble := 13 }, { argsA with preamble := 31 }, { argsA with bit1 := 54 },
      { argsA with bit1 := 62 }, { argsA with bit0 := 94 }, { argsA with bit0 := 9901 }, { argsA with endBit := 62 },
      { argsA with cutout := 56 }, { argsA with cutout := 62 }], valid Config.profileP0 a = false) := by decide

/-- V32 -/
theorem witness_FailedAllocation : (off argsA [] [false]).created = false ∧ argsA.flags.extractLsb' 2 30 = 0 ∧
    valid Config.profileP0 argsA = true ∧ (off argsA [] [false]).params.allocMayFail = true ∧
    (off argsA [] [false]).allocAnswer = false := by decide

/-- V5, V6, V10, V11, V15, V16, V19, V23 and V24: every bound is accepted. Both grounds of an allocation. -/
theorem witness_CreateConstructs : (off argsA [] [true]).created = false ∧ (off argsA [] [true]).allocAnswer = true ∧
    { Config.profileP0 with allocMayFail := false }.allocMayFail = false ∧
    (∀ a ∈ [argsA, argsB, { argsA with preamble := 30 }, { argsA with bit1 := 55 }, { argsA with bit1 := 61 },
      { argsA with bit0 := 95 }, { argsA with bit0 := 9900 }, { argsA with endBit := 61 }, { argsA with cutout := 57 },
      { argsA with cutout := 61 }], valid Config.profileP0 a = true ∧ a.flags.extractLsb' 2 30 = 0) := by decide

theorem witness_StoredConfiguration : Config.profileP0.Legal ∧ valid Config.profileP0 argsB = true := by decide

/-! ### Witnesses: emitters and phase handlers -/

/-- Two calls of one byte: three bits, then five (Y1, Y2). -/
theorem witness_EmitByteCalls : (fresh argsA [] (room 3 ++ room 10)).bitCursor = 0 ∧
    (emitByteCalls 0xA5#8 2 (fresh argsA [] (room 3 ++ room 10))).map (·.1) = some 8 := by decide

theorem witness_DataPhase : (inside argsA [0xA5#8] [] .data 0 0 3).byteIndex.toNat <
    (inside argsA [0xA5#8] [] .data 0 0 3).pktArgs.len.toNat := by decide

/-- The verdict of a dispatch. -/
def verdictAt (a : CfgArgs) (room : List Bool) (p : Phase) : Option PhaseVerdict :=
  (dispatch (inside a [0xA5#8] room p 0 0 0)).toOption.map (·.verdict)

theorem witness_PhaseSuccessors :
    (∀ p ∈ [Phase.cutout, .syncZero, .preamble, .start, .data],
      verdictAt argsB (List.replicate 14 true) p = some .next ∧ verdictAt argsB [false] p = some .full) ∧
    verdictAt argsB [true] .endBit = some .done ∧ verdictAt argsB [false] .endBit = some .full := by decide

/-! ### Witnesses: ENCODE -/

/-- E1, E3, E4, E5 and E6. -/
theorem witness_EncodeChecks :
    (off argsA [] []).created = false ∧
    ((off argsA [] []).constructed.created = true ∧ (off argsA [] []).constructed.pktArgs.present = false) ∧
    ((fresh argsA [] []).pktArgs.present = true ∧ (fresh argsA [] []).pktArgs.len.toNat = 0 ∧
      (fresh argsA [] []).params.maxPacketLen <
        { fresh argsA [] [] with pktArgs := ⟨true, 477218560, []⟩ }.pktArgs.len.toNat) ∧
    (1 ≤ (inside argsA [0xA5#8] [] .preamble 5 0 0).pktArgs.len.toNat ∧
      { inside argsA [0xA5#8] [] .preamble 5 0 0 with pktLatch := some [0x5A#8] }.pktLatch ≠
        some (inside argsA [0xA5#8] [] .preamble 5 0 0).packet) := by decide

/-- Both clauses: at least one symbol does not fit, and all fit. -/
theorem witness_EncodeWritesTheNextSymbols : (midB (room 10)).Inv ∧ (midB (room 10)).EncodeAccepted ∧
    (midB (room 10)).accepts ((midB (room 10)).remaining [0xA5#8]).length ≠
      ((midB (room 10)).remaining [0xA5#8]).length ∧
    (midB (room 15)).accepts ((midB (room 15)).remaining [0xA5#8]).length =
      ((midB (room 15)).remaining [0xA5#8]).length :=
  ⟨midB_inv _, midB_accepted _, by decide, by decide⟩

theorem witness_EncodeNext : ∃ s t : State, s.EncodeAccepted ∧ exec .encode s = .next t ∧ t.resState = 2 := by
  obtain ⟨t, h, hv⟩ := next_of_seen midB_full
  exact ⟨_, t, midB_accepted _, h, congrArg Prod.fst hv⟩

theorem witness_EncodeCompletes :
    ∃ s t : State, s.Inv ∧ s.EncodeAccepted ∧ exec .encode s = .next t ∧ t.resState = 1 := by
  obtain ⟨t, h, hv⟩ := next_of_seen midB_complete
  exact ⟨_, t, midB_inv _, midB_accepted _, h, congrArg Prod.fst hv⟩

theorem witness_CycleStarts : (fresh argsB [0xA5#8] []).Inv ∧ (fresh argsB [0xA5#8] []).atCycleStart :=
  ⟨freshB_inv _, freshB_start _⟩

/-- P2: 25 symbols in three calls. -/
theorem sendB : seen (send 3 (fresh argsB [0xA5#8] (room 10 ++ room 10 ++ room 5))) (fun t => t.resState) = some 1 := by
  decide

theorem witness_Chunking : ∃ (n : Nat) (s t : State), s.Inv ∧ s.EncodeAccepted ∧ s.atCycleStart ∧ 0 < n ∧
    send n s = .next t ∧ t.resState = 1 := by
  obtain ⟨t, h, hv⟩ := next_of_seen sendB
  exact ⟨3, _, t, freshB_inv _, freshB_accepted _, freshB_start _, by decide, h, hv⟩

theorem witness_StreamReadsBack : argsB.toCfg.Legal Config.profileP0 ∧
    Config.profileP0.b1Max < Config.profileP0.b0Min :=
  ⟨((midB_inv []).config rfl).legal, by decide⟩

theorem witness_AfterReset : ∃ s t : State, s.created = true ∧ exec .reset s = .next t :=
  ⟨midB [], _, rfl, rfl⟩

/-! ### Witnesses: the whole machine -/

/-- A host's ENCODE waits. -/
def waiting : State := commanded (midB (room 10)) 0x3

theorem waiting_inv : waiting.Inv := by
  obtain ⟨h1, h2, h3, h4⟩ := midB_inv (room 10)
  exact ⟨h1, fun h => ⟨(h2 h).legal, (h2 h).flag, (h2 h).table⟩, fun h => ⟨(h3 h).progress_le, (h3 h).progress_zero,
    (h3 h).cursor_zero, (h3 h).index_zero, (h3 h).unlatched, (h3 h).latched⟩, h4⟩

theorem waiting_hostOnly : waiting.HostOnly := by
  intro q hq
  obtain rfl := List.mem_singleton.mp hq
  rfl

theorem waiting_packetsWf : waiting.PacketsWf := by
  refine ⟨by decide, fun q hq a ha => ?_⟩
  obtain rfl := List.mem_singleton.mp hq
  cases ha

theorem waiting_next : seen (step waiting) (fun t => t.resState) = some 2 := by decide

theorem witness_StepKeeps : ∃ s t : State, s.Inv ∧ s.HostOnly ∧ s.PacketsWf ∧ step s = .next t := by
  obtain ⟨t, h, _⟩ := next_of_seen waiting_next
  exact ⟨_, t, waiting_inv, waiting_hostOnly, waiting_packetsWf, h⟩

theorem refused_next : seen (step { waiting with refused := true }) (fun t => t.resState) = some 2 := by decide

theorem witness_RefusalMark : ∃ s t : State, step s = .next t ∧ s.refused = true := by
  obtain ⟨t, h, _⟩ := next_of_seen refused_next
  exact ⟨_, t, h, rfl⟩

/-- CREATE and DESTROY change `created`, CREATE the configuration; a failed CREATE writes `RES_STATUS`. -/
theorem witness_WhoWrites :
    (∃ s t : State, exec .create s = .next t ∧ t.created ≠ s.created ∧ t.cfg ≠ s.cfg) ∧
    (∃ s t : State, exec .destroy s = .next t ∧ t.created ≠ s.created) ∧
    (∃ s t : State, exec .create s = .next t ∧ t.resStatus ≠ s.resStatus) ∧
    (∃ s t : State, exec .encode s = .next t ∧ t.resState ≠ s.resState) := by
  refine ⟨?_, ⟨midB [], _, rfl, by decide⟩, ?_, ?_⟩
  · obtain ⟨t, h, hv⟩ := next_of_seen (f := fun t => (t.created, t.cfg))
      (show seen (exec .create (off argsA [] [true])) _ = some (true, argsA.toCfg) by decide)
    refine ⟨_, t, h, ?_, ?_⟩
    · rw [(Prod.mk.inj hv).1]; decide
    · rw [(Prod.mk.inj hv).2]; decide
  · obtain ⟨t, h, hv⟩ := next_of_seen (f := fun t => t.resStatus)
      (show seen (exec .create (off { argsA with present := false } [] [])) _ = some 1 by decide)
    exact ⟨_, t, h, by rw [hv]; decide⟩
  · obtain ⟨t, h, hv⟩ := next_of_seen midB_full
    exact ⟨_, t, h, by rw [show t.resState = 2 from congrArg Prod.fst hv]; decide⟩

theorem witness_HostLines : [0xA5#8, 0#8, 0xFF#8].length < 2 ^ 32 := by decide

end Sys2Proof.Tests
end

/-! ### What each handler and each operation can change -/

namespace Sys2Proof.Machine

theorem State.sameBut.refl (s : State) : s.sameBut s := rfl

theorem State.sameBut.trans {s t u : State} (h : s.sameBut t) (h' : t.sameBut u) : s.sameBut u := by
  unfold State.sameBut at h h' ⊢
  rw [h] at h'
  exact h'

/-- The registers no handler changes, one rule each. -/
theorem State.sameBut.fields {s t : State} (h : s.sameBut t) :
    t.created = s.created ∧ t.cfg = s.cfg ∧ t.cutoutEnabled = s.cutoutEnabled ∧ t.sym = s.sym ∧ t.cmd = s.cmd ∧
    t.cfgArgs = s.cfgArgs ∧ t.pktArgs = s.pktArgs ∧ t.resStatus = s.resStatus ∧ t.resWritten = s.resWritten ∧
    t.resState = s.resState ∧ t.pktLatch = s.pktLatch ∧ t.refused = s.refused ∧
    t.refusedReason = s.refusedReason ∧ t.opReturn = s.opReturn ∧ t.pending = s.pending ∧
    t.allocDraws = s.allocDraws ∧ t.freeTaken = s.freeTaken ∧ t.params = s.params := by
  rw [h]; simp

/-- The fields after the latch of the packet (R141), but for the latch itself. -/
@[simp] theorem State.latched_fields (s : State) :
    s.latched.created = s.created ∧ s.latched.cfg = s.cfg ∧ s.latched.cutoutEnabled = s.cutoutEnabled ∧
    s.latched.sym = s.sym ∧ s.latched.phase = s.phase ∧ s.latched.progress = s.progress ∧
    s.latched.byteIndex = s.byteIndex ∧ s.latched.bitCursor = s.bitCursor ∧ s.latched.cmd = s.cmd ∧
    s.latched.cfgArgs = s.cfgArgs ∧ s.latched.pktArgs = s.pktArgs ∧ s.latched.resStatus = s.resStatus ∧
    s.latched.resWritten = s.resWritten ∧ s.latched.resState = s.resState ∧ s.latched.refused = s.refused ∧
    s.latched.refusedReason = s.refusedReason ∧ s.latched.out = s.out ∧ s.latched.opReturn = s.opReturn ∧
    s.latched.pending = s.pending ∧ s.latched.symDraws = s.symDraws ∧ s.latched.allocDraws = s.allocDraws ∧
    s.latched.freeTaken = s.freeTaken ∧ s.latched.params = s.params := by
  rw [State.latched_eq]; simp

/-! #### The handlers -/

theorem emitBit_sameBut (sel : Sel) (s : State) : s.sameBut (emitBit sel s).st := by
  cases h : s.symAnswer with
  | true => rw [emitBit_accepted h]; rfl
  | false => rw [emitBit_full h]; rfl

theorem emitByte_sameBut (b : Byte) (s : State) : s.sameBut (emitByte b s).st := by
  rw [emitByte_eq]; rfl

theorem emitPhase_sameBut (sel : Sel) (total : Nat) (nxt : Phase) (s : State) :
    s.sameBut (emitPhase sel total nxt s).st := by
  rw [emitPhase_eq]; rfl

theorem phData_sameBut {s : State} {r : PhaseRet} (h : phData s = .ok r) : s.sameBut r.st := by
  rw [phData_eq] at h
  split at h
  · cases h; rw [phDataByte_eq]; rfl
  · cases h

theorem phEnd_sameBut (s : State) : s.sameBut (phEnd s).st := by
  rw [phEnd_eq]; split <;> rfl

/-- A handler changes the position, the output stream and the answers used, and nothing else. -/
theorem dispatch_sameBut {s : State} {r : PhaseRet} (h : dispatch s = .ok r) : s.sameBut r.st := by
  unfold dispatch at h
  cases hp : s.phase <;> rw [hp] at h
  case data => exact phData_sameBut h
  case endBit => cases h; exact phEnd_sameBut s
  all_goals cases h; exact emitPhase_sameBut _ _ _ s

/-! #### ENCODE -/

/-- ENCODE is refused, or runs its loop (R141, R142). -/
theorem execEncode_cases {s t : State} (h : execEncode s = .next t) :
    (∃ r, t = raise r s) ∨ s.EncodeAccepted ∧ encodeLoop (encodeBound s) 0 s.latched = .next t := by
  unfold execEncode at h
  cases hc : checkEncodeArgs s with
  | some r => rw [hc] at h; cases h; exact .inl ⟨r, rfl⟩
  | none => rw [hc] at h; exact .inr ⟨(checkEncodeArgs_eq_none_iff s).mp hc, h⟩

/-- What the loop does with the handler it runs first (R141). -/
theorem encodeLoop_succ_cases {n written : Nat} {s t : State} (h : encodeLoop (n + 1) written s = .next t) :
    ∃ r, dispatch s = .ok r ∧
      (r.verdict = .full ∧ t = r.st.report (written + r.count) stateBufferFull ∨
       r.verdict = .done ∧ t = r.st.unlatched.report (written + r.count) stateComplete ∨
       r.verdict = .next ∧ encodeLoop n (written + r.count) r.st = .next t) := by
  rw [encodeLoop] at h
  cases hd : dispatch s with
  | error f => rw [hd] at h; cases h
  | ok r =>
    rw [hd] at h
    refine ⟨r, rfl, ?_⟩
    cases hv : r.verdict <;> simp only [hv] at h
    case full => cases h; exact .inl ⟨rfl, rfl⟩
    case done => cases h; exact .inr (.inl ⟨rfl, rfl⟩)
    case next => exact .inr (.inr ⟨rfl, h⟩)

/-- The loop ends with a handler that is full or done, run in a state that has every property `P` the completed
handlers keep. -/
theorem encodeLoop_ends {P : State → Prop}
    (hkeep : ∀ s r, P s → dispatch s = .ok r → r.verdict = .next → P r.st)
    {n written : Nat} {s t : State} (hs : P s) (h : encodeLoop n written s = .next t) :
    ∃ u r k, P u ∧ dispatch u = .ok r ∧
      (r.verdict = .full ∧ t = r.st.report k stateBufferFull ∨
       r.verdict = .done ∧ t = r.st.unlatched.report k stateComplete) := by
  induction n generalizing written s with
  | zero => cases h
  | succ n ih =>
    obtain ⟨r, hd, hfull | hdone | ⟨hv, hrest⟩⟩ := encodeLoop_succ_cases h
    · exact ⟨s, r, _, hs, hd, .inl hfull⟩
    · exact ⟨s, r, _, hs, hd, .inr hdone⟩
    · exact ih (hkeep s r hs hd hv) hrest

/-! #### Every operation -/

/-- Everything the operation `i`, run in `s`, can do to the state. -/
inductive ExecEffect (s : State) : Instr → State → Prop
  /-- Refused (R206): host commands only. -/
  | refused (i : Instr) (r : RefusalReason) (hi : i.hostIssuable = true) : ExecEffect s i (raise r s)
  /-- A CREATE that reports INVALID_ARG or NO_MEM (R180). -/
  | failed (d : Draws) (v : BitVec 2) (hs : s.created = false) (hv : v = statusInvalidArg ∨ v = statusNoMem) :
    ExecEffect s .create (State.withStatus v { s with allocDraws := d })
  /-- A CREATE that reports OK (R180). -/
  | constructed (d : Draws) (hs : s.created = false) (hv : valid s.params s.cfgArgs = true) :
    ExecEffect s .create (State.constructed { s with allocDraws := d })
  /-- RESET (R185). -/
  | reset (hs : s.created = true) : ExecEffect s .reset s.packetStart
  /-- DESTROY (R190). -/
  | destroyed (hs : s.created = true) : ExecEffect s .destroy s.destroyed
  /-- An ENCODE that reports buffer_full (R141). -/
  | bufferFull (u : State) (k : Nat) (ha : s.EncodeAccepted) (hu : s.latched.sameBut u) :
    ExecEffect s .encode (u.report k stateBufferFull)
  /-- An ENCODE that reports complete (R141). -/
  | complete (u : State) (k : Nat) (ha : s.EncodeAccepted) (hu : s.latched.sameBut u) :
    ExecEffect s .encode (u.unlatched.report k stateComplete)
  /-- An emitter or a phase handler as a step of its own. -/
  | internal (i : Instr) (r : OpReturn) (u : State) (hi : i.hostIssuable = false) (hu : s.sameBut u) :
    ExecEffect s i (u.returned r)

theorem allocate_snd_eq (s : State) : (allocate s).2 = { s with allocDraws := (allocate s).2.allocDraws } := by
  unfold allocate; split <;> rfl

theorem create_effect (s : State) : ExecEffect s .create (create s) := by
  unfold create
  split
  · exact .refused _ _ rfl
  next hc =>
  rw [Bool.not_eq_true] at hc
  split
  · exact .failed s.allocDraws _ hc (.inl rfl)
  split
  · exact .refused _ _ rfl
  split
  · exact .failed s.allocDraws _ hc (.inl rfl)
  next hv =>
  rw [Bool.not_eq_false] at hv
  rw [allocate_snd_eq]
  split
  · exact .constructed _ hc hv
  · exact .failed _ _ hc (.inr rfl)

theorem execEncode_effect {s t : State} (h : execEncode s = .next t) : ExecEffect s .encode t := by
  obtain ⟨r, rfl⟩ | ⟨ha, hl⟩ := execEncode_cases h
  · exact .refused _ r rfl
  obtain ⟨u, r, k, hu, hd, ⟨-, rfl⟩ | ⟨-, rfl⟩⟩ :=
    encodeLoop_ends (P := s.latched.sameBut) (fun _ _ hp hd _ => hp.trans (dispatch_sameBut hd)) (.refl _) hl
  · exact .bufferFull _ k ha (hu.trans (dispatch_sameBut hd))
  · exact .complete _ k ha (hu.trans (dispatch_sameBut hd))

/-- An operation that answers a next state has one of the listed effects. -/
theorem exec_effect {i : Instr} {s t : State} (h : exec i s = .next t) : ExecEffect s i t := by
  cases i with
  | create => cases h; exact create_effect s
  | reset =>
    cases h
    split
    · next hs => exact .reset hs
    · exact .refused _ _ rfl
  | destroy =>
    cases h
    split
    · next hs => exact .destroyed hs
    · exact .refused _ _ rfl
  | encode => exact execEncode_effect h
  | emitBit sel => cases h; exact .internal _ _ _ rfl (emitBit_sameBut sel s)
  | emitByte b => cases h; exact .internal _ _ _ rfl (emitByte_sameBut b s)
  | phData =>
    simp only [exec, execPhData] at h
    cases hd : phData s with
    | error f => rw [hd] at h; cases h
    | ok r => rw [hd] at h; cases h; exact .internal _ _ _ rfl (phData_sameBut hd)
  | phEnd => cases h; exact .internal _ _ _ rfl (phEnd_sameBut s)
  | phCutout | phSyncZero | phPreamble | phStart =>
    cases h; exact .internal _ _ _ rfl (emitPhase_sameBut _ _ _ s)

/-! #### The step -/

/-- The state the oldest waiting operation `q` runs in, `rest` being the others. -/
def State.issued (q : Issue) (rest : List Issue) (s : State) : State := State.load q { s with pending := rest }

@[simp] theorem State.issued_fields (q : Issue) (rest : List Issue) (s : State) :
    (s.issued q rest).pktArgs = q.pktArgs.getD s.pktArgs ∧ (s.issued q rest).pending = rest ∧
    (s.issued q rest).refused = s.refused := by
  simp [State.issued]

/-- An internal word that is never formed (R83). -/
theorem fetch_neverFormed {s : State} {q : Issue} {rest : List Issue} {e : DecodeError} (hp : s.pending = q :: rest)
    (hport : q.port = .sequencer) (hd : decodeInternal q.word = .error e) : fetch s = .neverFormed q.word := by
  simp only [fetch, hp, hport, decodeAt, hd]

/-- A step is idle, or runs the operation of the oldest waiting word, or refuses a host's word that spells none. -/
theorem step_cases {s t : State} (h : step s = .next t) :
    s.pending = [] ∧ t = s ∨
    ∃ q rest, s.pending = q :: rest ∧
      ((∃ i, decodeAt q.port q.word = .ok i ∧ exec i (s.issued q rest) = .next t) ∨
        q.port = .host ∧ (∃ e, decodeHost q.word = .error e) ∧ t = raise .reservedEncoding (s.issued q rest)) := by
  unfold step at h
  cases hp : s.pending with
  | nil =>
    rw [fetch_idle hp] at h
    cases h; exact .inl ⟨rfl, rfl⟩
  | cons q rest =>
    refine .inr ⟨q, rest, rfl, ?_⟩
    cases hd : decodeAt q.port q.word with
    | ok i => rw [fetch_run hp hd] at h; exact .inl ⟨i, rfl, h⟩
    | error e =>
      cases hport : q.port with
      | host =>
        rw [hport] at hd
        rw [fetch_reserved hp hport hd] at h
        cases h; exact .inr ⟨rfl, ⟨e, hd⟩, rfl⟩
      | sequencer =>
        rw [hport] at hd
        rw [fetch_neverFormed hp hport hd] at h; cases h

end Sys2Proof.Machine

/-! ### The invariants of R36 -/

namespace Sys2Proof.Machine

/-- `t` differs from `s` only in registers the invariants of R36 do not speak of. -/
def State.sameInstance (s t : State) : Prop :=
  t = { s with
    cmd := t.cmd, cfgArgs := t.cfgArgs, pktArgs := t.pktArgs, resStatus := t.resStatus, resWritten := t.resWritten,
    resState := t.resState, refused := t.refused, refusedReason := t.refusedReason, out := t.out,
    opReturn := t.opReturn, pending := t.pending, symDraws := t.symDraws, allocDraws := t.allocDraws,
    freeTaken := t.freeTaken }

theorem State.PositionInv.of_sameInstance {s t : State} (h : s.PositionInv) (hst : s.sameInstance t) :
    t.PositionInv := by
  rw [hst]
  exact ⟨h.progress_le, h.progress_zero, h.cursor_zero, h.index_zero, h.unlatched, h.latched⟩

theorem State.ConfigInv.congr {s t : State} (h : s.ConfigInv) (hcfg : t.cfg = s.cfg)
    (hflag : t.cutoutEnabled = s.cutoutEnabled) (hsym : t.sym = s.sym) (hpar : t.params = s.params) : t.ConfigInv :=
  ⟨by rw [hcfg, hpar]; exact h.legal, by rw [hflag, hcfg]; exact h.flag, by rw [hsym, hpar, hcfg]; exact h.table⟩

theorem State.Inv.of_sameInstance {s t : State} (h : s.Inv) (hst : s.sameInstance t) : t.Inv where
  params := by rw [hst]; exact h.params
  config hc := by
    rw [hst] at hc
    exact (h.config hc).congr (by rw [hst]) (by rw [hst]) (by rw [hst]) (by rw [hst])
  position hc := by
    rw [hst] at hc
    exact (h.position hc).of_sameInstance hst
  destroyed hc := by
    rw [hst] at hc ⊢
    exact h.destroyed hc

/-- The start of a packet, in Cutout or SyncZero, is a position of R36. -/
theorem State.positionInv_of_start {s : State} (hph : s.phase = .cutout ∨ s.phase = .syncZero)
    (hpr : s.progress = 0) (hbi : s.byteIndex = 0) (hbc : s.bitCursor = 0) (hl : s.pktLatch = none) :
    s.PositionInv where
  progress_le := .inr hpr
  progress_zero _ := hpr
  cursor_zero _ := hbc
  index_zero _ := hbi
  unlatched _ := ⟨hph, hpr⟩
  latched pkt hpkt := by rw [hl] at hpkt; cases hpkt

/-! #### ENCODE keeps the position invariant -/

/-- The handler that ran inside a packet offered the next symbols of the cycle. -/
theorem State.InPacket.offers_of_dispatch {s : State} {pkt : List Byte} {r : PhaseRet} (hp : s.InPacket pkt)
    (hd : dispatch s = .ok r) : ∃ seg rest, Offers s pkt seg rest r := by
  obtain ⟨seg, rest, r', hd', ho, -⟩ := dispatch_offers hp
  obtain rfl : r = r' := by rw [hd] at hd'; exact Except.ok.inj hd'
  exact ⟨seg, rest, ho⟩

/-- A handler that is not done leaves the block inside its packet. -/
theorem State.InPacket.after_dispatch {s : State} {pkt : List Byte} {r : PhaseRet} (hp : s.InPacket pkt)
    (hd : dispatch s = .ok r) (hv : r.verdict ≠ .done) : r.st.InPacket pkt := by
  obtain ⟨seg, rest, ho⟩ := hp.offers_of_dispatch hd
  have hf := ho.frame.fields
  refine ⟨?_, ?_, ?_⟩
  · rw [← hp.packet, State.packet, State.packet, State.packetLen, State.packetLen]; simp only [hf]
  · simp only [hf, hp.latch]
  · by_cases hk : s.accepts seg.length = seg.length
    · by_cases hr : rest = []
      · exact absurd (ho.done hk hr).1 hv
      · exact (ho.next hk hr).2.2
    · exact (ho.full hk).2.2

/-- A handler that is done leaves the block at the start of Cutout. -/
theorem State.InPacket.start_after_done {s : State} {pkt : List Byte} {r : PhaseRet} (hp : s.InPacket pkt)
    (hd : dispatch s = .ok r) (hv : r.verdict = .done) :
    r.st.phase = .cutout ∧ r.st.progress = 0 ∧ r.st.byteIndex = 0 ∧ r.st.bitCursor = 0 := by
  obtain ⟨seg, rest, ho⟩ := hp.offers_of_dispatch hd
  by_cases hk : s.accepts seg.length = seg.length
  · by_cases hr : rest = []
    · exact (ho.done hk hr).2
    · rw [(ho.next hk hr).1] at hv; cases hv
  · rw [(ho.full hk).1] at hv; cases hv

/-- An accepted ENCODE starts its loop inside the packet it latched (R141, R142). -/
theorem State.EncodeAccepted.latched_inPacket {s : State} (ha : s.EncodeAccepted) (hp : s.PositionInv) :
    s.latched.InPacket s.packet := by
  obtain ⟨-, -, hlen, hnone | hsome⟩ := ha
  · have hl : s.latched = { s with pktLatch := some s.packet } := by rw [State.latched_eq, hnone]; rfl
    obtain ⟨hph, hpr⟩ := hp.unlatched hnone
    rw [hl]
    refine ⟨rfl, rfl, hp.progress_le, hp.progress_zero, hp.cursor_zero, hp.index_zero, (by cases ·), ?_⟩
    intro pkt hpkt
    obtain rfl : s.packet = pkt := Option.some.inj hpkt
    rw [State.packet_length]
    exact ⟨hlen, by rcases hph with h | h <;> simp [h], by rcases hph with h | h <;> simp [h]⟩
  · have hl : s.latched = s := by rw [State.latched, if_neg (by simp [hsome])]
    rw [hl]
    exact ⟨rfl, hsome, hp⟩

theorem execEncode_positionInv {s t : State} (hs : s.PositionInv) (h : execEncode s = .next t) :
    t.PositionInv := by
  obtain ⟨r, rfl⟩ | ⟨ha, hl⟩ := execEncode_cases h
  · exact hs.of_sameInstance rfl
  obtain ⟨u, r, k, hu, hd, ⟨hv, rfl⟩ | ⟨hv, rfl⟩⟩ :=
    encodeLoop_ends (P := (·.InPacket s.packet)) (fun _ _ hp hd hv => hp.after_dispatch hd (by simp [hv]))
      (ha.latched_inPacket hs) hl
  · exact (hu.after_dispatch hd (by simp [hv])).position.of_sameInstance rfl
  · obtain ⟨hph, hpr, hbi, hbc⟩ := hu.start_after_done hd hv
    exact State.positionInv_of_start (.inl hph) hpr hbi hbc rfl

/-! #### CREATE stores a legal configuration -/

/-- The low `n` bits of a word below `2 ^ n` hold all of it (R76). -/
theorem toNat_lowBits {w : Word} {n : Nat} (h : w.toNat < 2 ^ n) : (w.extractLsb' 0 n).toNat = w.toNat := by
  rw [BitVec.extractLsb'_toNat, Nat.shiftRight_zero, Nat.mod_eq_of_lt h]

/-- `valid(args)` bounds every value below its field's width, so the CFG stored is legal (R28, R76, R108). -/
theorem CfgArgs.toCfg_legal {p : Params} {a : CfgArgs} (hp : p.Legal) (hv : valid p a = true) : a.toCfg.Legal p := by
  obtain ⟨⟨-, -, -, hpre⟩, ⟨-, -, -, hb1⟩, ⟨-, -, -, hb0⟩, ⟨-, -, hcut⟩, -⟩ := hp
  simp only [valid, checkPreamble, checkCutout, checkBit1, checkBit0, checkEnd, inWindow, Bool.and_eq_true,
    Bool.or_eq_true, decide_eq_true_eq, beq_iff_eq] at hv
  obtain ⟨⟨⟨⟨⟨-, h1⟩, h2⟩, h3⟩, h4⟩, h5⟩ := hv
  refine ⟨?_, ?_, ?_, ?_, ?_⟩
  · rw [CfgArgs.toCfg, toNat_lowBits (n := 8) (by omega)]; exact h1
  · rw [CfgArgs.toCfg, durInWindow, toNat_lowBits (n := 15) (by omega)]; exact h3
  · rw [CfgArgs.toCfg, durInWindow, toNat_lowBits (n := 15) (by omega)]; exact h4
  · rw [CfgArgs.toCfg, toNat_lowBits (n := 15) (by omega)]; exact h5
  · rcases h2 with h0 | hw
    · left; rw [CfgArgs.toCfg, h0]; rfl
    · right; rw [CfgArgs.toCfg, durInWindow, toNat_lowBits (n := 15) (by omega)]; exact hw

/-! #### Every step keeps the invariants -/

/-- While no encoder exists, the invariants speak of the parameters and the latch only. -/
theorem State.Inv.of_not_created {s : State} (hp : s.params.Legal) (hc : s.created = false) (hl : s.pktLatch = none) :
    s.Inv where
  params := hp
  config h := by rw [hc] at h; cases h
  position h := by rw [hc] at h; cases h
  destroyed _ := hl

/-- The invariants while an encoder exists. -/
theorem State.Inv.of_created {s : State} (hp : s.params.Legal) (hc : s.created = true) (hcfg : s.ConfigInv)
    (hpos : s.PositionInv) : s.Inv where
  params := hp
  config _ := hcfg
  position _ := hpos
  destroyed h := by rw [hc] at h; cases h

/-- An accepted ENCODE keeps the configuration, and the position invariant by its loop. -/
theorem State.Inv.after_encode {s t : State} (hs : s.Inv) (h : execEncode s = .next t) : t.Inv := by
  cases hc : s.created
  · obtain ⟨r, rfl⟩ | ⟨ha, -⟩ := execEncode_cases h
    · exact hs.of_sameInstance rfl
    · rw [ha.1] at hc; cases hc
  have hpos := execEncode_positionInv (hs.position hc) h
  have hframe : t.params = s.params ∧ t.created = s.created ∧ t.cfg = s.cfg ∧ t.cutoutEnabled = s.cutoutEnabled ∧
      t.sym = s.sym := by
    cases execEncode_effect h with
    | refused => simp
    | bufferFull u k _ hu | complete u k _ hu => simp [hu.fields]
    | internal _ _ _ hi => cases hi
  obtain ⟨hpar, hcr, hcfg, hflag, hsym⟩ := hframe
  exact .of_created (hpar ▸ hs.params) (hcr.trans hc) ((hs.config hc).congr hcfg hflag hsym hpar) hpos

/-- A host command keeps the invariants of R36. -/
theorem State.Inv.after_exec {i : Instr} {s t : State} (hi : i.hostIssuable = true) (hs : s.Inv)
    (h : exec i s = .next t) : t.Inv := by
  cases exec_effect h with
  | refused | failed => exact hs.of_sameInstance rfl
  | constructed d _ hv =>
    exact .of_created hs.params rfl ⟨CfgArgs.toCfg_legal hs.params hv, rfl, rfl⟩
      (State.positionInv_of_start (.inr rfl) rfl rfl rfl rfl)
  | reset hc =>
    exact .of_created hs.params hc ((hs.config hc).congr rfl rfl rfl rfl)
      (State.positionInv_of_start (.inr rfl) rfl rfl rfl rfl)
  | destroyed => exact .of_not_created hs.params rfl rfl
  | bufferFull | complete => exact hs.after_encode h
  | internal _ _ _ hn => rw [hi] at hn; cases hn

/-- No operation writes its inputs: the argument registers, `CMD`, the waiting operations, the parameters (R21). -/
theorem exec_inputs {i : Instr} {s t : State} (h : exec i s = .next t) :
    t.cfgArgs = s.cfgArgs ∧ t.pktArgs = s.pktArgs ∧ t.cmd = s.cmd ∧ t.pending = s.pending ∧ t.params = s.params := by
  cases exec_effect h with
  | refused | failed | reset => simp
  | constructed => simp [State.constructed_eq]
  | destroyed => simp [State.destroyed_eq]
  | bufferFull u k _ hu | complete u k _ hu => simp [hu.fields]
  | internal _ _ u _ hu => simp [hu.fields]

/-- The packet spaces stay canonical when the argument registers and the waiting operations are kept. -/
theorem State.PacketsWf.congr {s t : State} (h : s.PacketsWf) (hpkt : t.pktArgs = s.pktArgs)
    (hpend : t.pending = s.pending) : t.PacketsWf := by
  unfold State.PacketsWf; rw [hpkt, hpend]; exact h

theorem State.HostOnly.congr {s t : State} (h : s.HostOnly) (hpend : t.pending = s.pending) : t.HostOnly := by
  unfold State.HostOnly; rw [hpend]; exact h

/-- Taking the oldest waiting operation keeps the packet spaces canonical. -/
theorem State.PacketsWf.issued {s : State} {q : Issue} {rest : List Issue} (h : s.PacketsWf)
    (hp : s.pending = q :: rest) : (s.issued q rest).PacketsWf := by
  obtain ⟨hpkt, hpend⟩ := h
  rw [hp] at hpend
  simp only [State.PacketsWf, State.issued_fields]
  refine ⟨?_, fun q' hq' => hpend q' (List.mem_cons_of_mem q hq')⟩
  cases ha : q.pktArgs with
  | none => exact hpkt
  | some a => exact hpend q List.mem_cons_self a ha

theorem State.HostOnly.issued {s : State} {q : Issue} {rest : List Issue} (h : s.HostOnly)
    (hp : s.pending = q :: rest) : (s.issued q rest).HostOnly := by
  intro q' hq'
  refine h q' ?_
  rw [hp]
  exact List.mem_cons_of_mem q (by simpa using hq')

/-- What `CMD` decodes is one of the four host commands (R72, R83). -/
theorem decodeHost_hostIssuable {w : Word} {i : Instr} (h : decodeHost w = .ok i) : i.hostIssuable = true := by
  unfold decodeHost at h
  split at h
  · split at h <;> cases h <;> rfl
  · cases h

/-- Settles O49: a step takes the oldest waiting operation, which touches no register the invariants speak of, and
runs a host command, which keeps them. -/
theorem stepKeepsTheInvariants : Obligations.StepKeepsTheInvariants := by
  intro s t hinv hhost hwf h
  obtain ⟨-, rfl⟩ | ⟨q, rest, hp, hrun⟩ := step_cases h
  · exact ⟨hinv, hhost, hwf⟩
  have hinv' : (s.issued q rest).Inv := hinv.of_sameInstance rfl
  have hhost' := hhost.issued hp
  have hwf' := hwf.issued hp
  obtain ⟨i, hd, hex⟩ | ⟨-, -, rfl⟩ := hrun
  · have hq : q.port = .host := hhost q (by rw [hp]; exact List.mem_cons_self)
    rw [hq] at hd
    obtain ⟨-, hpkt, -, hpend, -⟩ := exec_inputs hex
    exact ⟨hinv'.after_exec (decodeHost_hostIssuable hd) hex, hhost'.congr hpend, hwf'.congr hpkt hpend⟩
  · exact ⟨hinv'.of_sameInstance rfl, hhost'.congr rfl, hwf'.congr rfl rfl⟩

/-- The parameters of the machine at hand are legal, whatever they are (R8, R9). -/
theorem config_params_legal : Config.params.Legal := by
  have hcut : Config.cutMinAbove % (1 + Config.cutMaxAbove.val) < 1 + Config.cutMaxAbove.val :=
    Nat.mod_lt _ (by omega)
  simp only [Params.Legal, Config.params]
  omega

/-- Settles O48: no encoder exists at power-on, no operation waits and no packet byte is listed. -/
theorem powerOnMeetsTheInvariants : Obligations.PowerOnMeetsTheInvariants :=
  ⟨.of_not_created config_params_legal rfl rfl, fun _ hq => (List.not_mem_nil hq).elim,
    rfl, fun _ hq => (List.not_mem_nil hq).elim⟩

end Sys2Proof.Machine

/-! ### Who writes what -/

namespace Sys2Proof.Machine

/-- No operation clears the refusal mark (R206). -/
theorem exec_refused {i : Instr} {s t : State} (h : exec i s = .next t) (hs : s.refused = true) :
    t.refused = true := by
  cases exec_effect h with
  | refused => rfl
  | failed | reset | constructed | destroyed => exact hs
  | bufferFull u k _ hu | complete u k _ hu => simpa [hu.fields] using hs
  | internal _ _ u _ hu => simpa [hu.fields] using hs

/-- Settles O51: an operation either keeps the mark or is a refusal, which sets it. -/
theorem refusalMarkIsNeverCleared : Obligations.RefusalMarkIsNeverCleared := by
  intro s t h href
  obtain ⟨-, rfl⟩ | ⟨q, rest, -, ⟨i, -, hex⟩ | ⟨-, -, rfl⟩⟩ := step_cases h
  · exact href
  · exact exec_refused hex (by simpa using href)
  · rfl

/-- Settles O53: of the effects of an operation only a successful CREATE and DESTROY name these registers. -/
theorem configurationIsImmutable : Obligations.ConfigurationIsImmutable := by
  intro i s t h
  cases exec_effect h with
  | constructed d hs => simp [hs, State.constructed_eq, statusOk]
  | destroyed => simp [State.destroyed_eq]
  | refused | failed | reset => simp
  | bufferFull u k _ hu | complete u k _ hu => simp [hu.fields]
  | internal _ _ u _ hu => simp [hu.fields]

/-- Settles O54: of the effects of an operation only CREATE's name `RES_STATUS`, and only ENCODE's the other two. -/
theorem resultRegistersHaveOneWriter : Obligations.ResultRegistersHaveOneWriter := by
  intro i s t h
  cases exec_effect h with
  | constructed => simp [State.constructed_eq]
  | destroyed => simp [State.destroyed_eq]
  | refused | failed | reset => simp
  | bufferFull u k _ hu | complete u k _ hu => simp [hu.fields]
  | internal _ _ u _ hu => simp [hu.fields]

/-- Settles O55: no effect of an operation writes an input; the packet bytes are among the argument registers. -/
theorem inputsAreNeverWritten : Obligations.InputsAreNeverWritten := by
  intro i s t h
  obtain ⟨hcfg, hpkt, hcmd, hpend, hpar⟩ := exec_inputs h
  exact ⟨hcfg, hpkt, hcmd, hpend, hpar, fun a => by rw [hpkt]⟩

end Sys2Proof.Machine

/-! ### The successors of the phases -/

namespace Sys2Proof.Machine

/-- A phase with a fixed successor (R150 to R153) is full and stays, or is complete and moves there. -/
theorem emitPhase_successor {sel : Sel} {total : Nat} {nxt : Phase} {s : State} {r : PhaseRet}
    (h : emitPhase sel total nxt s = r) :
    r.verdict = .full ∧ r.st.phase = s.phase ∨ r.verdict = .next ∧ r.st.phase = nxt := by
  subst h
  by_cases hk : s.accepts (total - s.progress.toNat) = total - s.progress.toNat
  · rw [emitPhase_next hk]; exact .inr ⟨rfl, rfl⟩
  · rw [emitPhase_full hk]; exact .inl ⟨rfl, rfl⟩

/-- PH_DATA is full and stays, or finishes its byte and moves to End or Start (R154). -/
theorem phData_successor {s : State} {r : PhaseRet} (h : phData s = .ok r) :
    r.verdict = .full ∧ r.st.phase = s.phase ∨
    r.verdict = .next ∧ (r.st.phase = .endBit ∨ r.st.phase = .start) := by
  rw [phData_eq] at h
  split at h
  · cases h
    by_cases hk : s.accepts (8 - s.bitCursor.toNat) = 8 - s.bitCursor.toNat
    · rw [phDataByte_next hk]; exact .inr ⟨rfl, ite_eq_or_eq _ _ _⟩
    · rw [phDataByte_full hk]; exact .inl ⟨rfl, rfl⟩
  · cases h

/-- PH_END is full and stays, or is done and back at Cutout (R155). -/
theorem phEnd_successor {s : State} {r : PhaseRet} (h : phEnd s = r) :
    r.verdict = .full ∧ r.st.phase = s.phase ∨ r.verdict = .done ∧ r.st.phase = .cutout := by
  rw [phEnd_eq] at h
  split at h <;> subst h
  · exact .inr ⟨rfl, rfl⟩
  · exact .inl ⟨rfl, rfl⟩

/-- Settles O32: each handler's two outcomes, read off for the phase the dispatch finds. -/
theorem phaseSuccessors : Obligations.PhaseSuccessors := by
  intro s r h
  unfold dispatch at h
  cases hp : s.phase <;> rw [hp] at h
  case data => obtain ⟨hv, hph⟩ | ⟨hv, hph⟩ := phData_successor h <;> simp [hv, hph, hp]
  case endBit => obtain ⟨hv, hph⟩ | ⟨hv, hph⟩ := phEnd_successor (Except.ok.inj h) <;> simp [hv, hph, hp]
  case cutout | syncZero | preamble | start =>
    obtain ⟨hv, hph⟩ | ⟨hv, hph⟩ := emitPhase_successor (Except.ok.inj h) <;> simp [hv, hph, hp]

end Sys2Proof.Machine

/-! ### The output stream -/

namespace Sys2Proof.Machine

theorem emitBit_out_prefix (sel : Sel) (s : State) : s.out <+: (emitBit sel s).st.out := by
  cases h : s.symAnswer with
  | true => rw [emitBit_accepted h]; exact List.prefix_append _ _
  | false => rw [emitBit_full h]; simp

theorem emitByte_out_prefix (b : Byte) (s : State) : s.out <+: (emitByte b s).st.out := by
  rw [emitByte_eq]; exact List.prefix_append _ _

theorem emitPhase_out_prefix (sel : Sel) (total : Nat) (nxt : Phase) (s : State) :
    s.out <+: (emitPhase sel total nxt s).st.out := by
  rw [emitPhase_eq]; exact List.prefix_append _ _

theorem phData_out_prefix {s : State} {r : PhaseRet} (h : phData s = .ok r) : s.out <+: r.st.out := by
  rw [phData_eq] at h
  split at h
  · cases h; rw [phDataByte_eq]; exact List.prefix_append _ _
  · cases h

theorem phEnd_out_prefix (s : State) : s.out <+: (phEnd s).st.out := by
  rw [phEnd_eq]
  split
  · exact List.prefix_append _ _
  · exact List.prefix_rfl

/-- A handler writes at the tail of the stream only (R59, R121). -/
theorem dispatch_out_prefix {s : State} {r : PhaseRet} (h : dispatch s = .ok r) : s.out <+: r.st.out := by
  unfold dispatch at h
  cases hp : s.phase <;> rw [hp] at h
  case data => exact phData_out_prefix h
  case endBit => cases h; exact phEnd_out_prefix s
  case cutout | syncZero | preamble | start => cases h; exact emitPhase_out_prefix _ _ _ s

/-- ENCODE writes through its handlers only: the latch and the two results touch no symbol. -/
theorem execEncode_out_prefix {s t : State} (h : execEncode s = .next t) : s.out <+: t.out := by
  obtain ⟨r, rfl⟩ | ⟨-, hl⟩ := execEncode_cases h
  · simp
  have hstart : s.out <+: s.latched.out := by simp
  obtain ⟨u, r, k, hu, hd, ⟨-, rfl⟩ | ⟨-, rfl⟩⟩ :=
    encodeLoop_ends (P := fun u => s.out <+: u.out) (fun _ _ hp hd _ => hp.trans (dispatch_out_prefix hd)) hstart hl
  all_goals simpa using hu.trans (dispatch_out_prefix hd)

/-- A host command other than ENCODE leaves the stream alone; RESET and DESTROY do not clear it (R61). -/
theorem exec_out_of_ne_encode {i : Instr} {s t : State} (hi : i.hostIssuable = true) (hne : i ≠ .encode)
    (h : exec i s = .next t) : t.out = s.out := by
  cases exec_effect h with
  | refused | failed | reset => simp
  | constructed => simp [State.constructed_eq]
  | destroyed => simp [State.destroyed_eq]
  | bufferFull | complete => exact absurd rfl hne
  | internal _ _ _ hn => rw [hi] at hn; cases hn

/-- Every operation writes at the tail of the stream only (R54, R59). -/
theorem exec_out_prefix {i : Instr} {s t : State} (h : exec i s = .next t) : s.out <+: t.out := by
  cases i with
  | create | reset | destroy => rw [exec_out_of_ne_encode rfl (by decide) h]
  | encode => exact execEncode_out_prefix h
  | emitBit sel => cases h; exact emitBit_out_prefix sel s
  | emitByte b => cases h; exact emitByte_out_prefix b s
  | phCutout | phSyncZero | phPreamble | phStart => cases h; exact emitPhase_out_prefix _ _ _ s
  | phData =>
    simp only [exec, execPhData] at h
    cases hd : phData s with
    | error f => rw [hd] at h; cases h
    | ok r => rw [hd] at h; cases h; exact phData_out_prefix hd
  | phEnd => cases h; exact phEnd_out_prefix s

/-- Settles O52: an idle step, the register writes before an operation and a refusal keep the stream, and the
operation itself only appends to it. -/
theorem outputStreamOnlyGrows : Obligations.OutputStreamOnlyGrows := by
  intro s t h
  have hprefix : s.out <+: t.out := by
    obtain ⟨-, rfl⟩ | ⟨q, rest, -, ⟨i, -, hex⟩ | ⟨-, -, rfl⟩⟩ := step_cases h
    · exact List.prefix_rfl
    · simpa [State.issued] using exec_out_prefix hex
    · exact List.prefix_rfl
  obtain ⟨ys, hys⟩ := hprefix
  exact ⟨ys, hys.symm⟩

end Sys2Proof.Machine

/-! ### Where PH_DATA stops -/

namespace Sys2Proof.Machine

/-- PH_DATA has no byte to run on exactly where `byte_index` is at or beyond the packet's end (R52). -/
theorem phData_error_iff (s : State) : (∃ f, phData s = .error f) ↔ s.packetLen ≤ s.byteIndex.toNat := by
  rw [phData_eq, ← Nat.not_lt]
  by_cases hlt : s.byteIndex.toNat < s.packetLen
  · simp [hlt]
  · simp [hlt]

/-- PH_DATA as a step stops with the fault its handler stops with. -/
theorem exec_phData_fault_iff (s : State) (f : Fault) : exec .phData s = .fault f ↔ phData s = .error f := by
  simp only [exec, execPhData]
  cases phData s with
  | error g => simp
  | ok r => simp

/-- Settles O30: the step stops where the handler does, which is where `PktRead` has no byte. -/
theorem dataPhaseStopsOnlyBeyondThePacket : Obligations.DataPhaseStopsOnlyBeyondThePacket := by
  intro s
  simp only [exec_phData_fault_iff]
  exact phData_error_iff s

end Sys2Proof.Machine

/-! ### Words and the operations they spell -/

namespace Sys2Proof

/-! #### The fields of a word -/

/-- A field above the low part `lo` of a word is a field of its high part. -/
theorem extractLsb'_append_above {m n : Nat} (hi : BitVec m) (lo : BitVec n) (k l : Nat) :
    (hi ++ lo).extractLsb' (n + k) l = hi.extractLsb' k l := by
  rw [BitVec.extractLsb'_append_eq_of_le (Nat.le_add_right n k), Nat.add_sub_cancel_left]

/-- Two neighbouring fields, joined, are one field (R10). -/
theorem field_append_field (w : Word) (lo m n : Nat) : field w (lo + m) n ++ field w lo m = field w lo (n + m) :=
  BitVec.extractLsb'_append_extractLsb'_eq_extractLsb' rfl

theorem field_whole (w : Word) : field w 0 32 = w := BitVec.extractLsb'_eq_self

/-- `RSV` and `OP` make up a command word (R71). -/
theorem host_fields (w : Word) : field w 4 28 ++ field w 0 4 = w :=
  (field_append_field w 0 4 28).trans (field_whole w)

/-- The three fields of an EMIT_BIT word (R83). -/
theorem emitBit_fields (w : Word) : field w 6 26 ++ field w 4 2 ++ field w 0 4 = w := by
  rw [field_append_field w 4 2 26]; exact host_fields w

/-- The four fields of an EMIT_BYTE word (R83). -/
theorem emitByte_fields (w : Word) : field w 16 16 ++ field w 8 8 ++ field w 4 4 ++ field w 0 4 = w := by
  rw [field_append_field w 8 8 16, field_append_field w 4 4 24]; exact host_fields w

/-- The three fields of a phase handler's word (R83). -/
theorem phase_fields (w : Word) : field w 7 25 ++ field w 4 3 ++ field w 0 4 = w := by
  rw [field_append_field w 4 3 25]; exact host_fields w

theorem Sel.code_ofCode (c : BitVec 2) : (Sel.ofCode c).code = c := by
  revert c; decide

/-! #### The two decoders match the whole word -/

theorem decodeHost_encode {i : Instr} (hi : i.hostIssuable = true) : decodeHost (encode i) = .ok i := by
  cases i
  case create | reset | encode | destroy => rfl
  all_goals cases hi

theorem encode_of_decodeHost {w : Word} {i : Instr} (h : decodeHost w = .ok i) : encode i = w := by
  unfold decodeHost at h
  split at h
  next hrsv =>
    refine Eq.trans ?_ (host_fields w)
    rw [hrsv]
    split at h <;> cases h
    all_goals
      rename_i hop
      rw [hop]; rfl
  · cases h

/-- What `CMD` decodes: a host command, from its own word (R72). -/
theorem decodeHost_eq_ok_iff {w : Word} {i : Instr} :
    decodeHost w = .ok i ↔ i.hostIssuable = true ∧ encode i = w :=
  ⟨fun h => ⟨Machine.decodeHost_hostIssuable h, encode_of_decodeHost h⟩, fun ⟨hi, hw⟩ => hw ▸ decodeHost_encode hi⟩

theorem decodeInternal_encode_emitBit (sel : Sel) : decodeInternal (encode (.emitBit sel)) = .ok (.emitBit sel) := by
  cases sel <;> rfl

theorem decodeInternal_encode_emitByte (b : Byte) :
    decodeInternal (encode (.emitByte b)) = .ok (.emitByte b) := by
  have hop : field (encode (.emitByte b)) 0 4 = 0x9#4 := BitVec.extractLsb'_append_eq_right
  have hmid : field (encode (.emitByte b)) 4 4 = 0 :=
    (extractLsb'_append_above (0#16 ++ b ++ 0#4) 0x9#4 0 4).trans BitVec.extractLsb'_append_eq_right
  have hbyte : field (encode (.emitByte b)) 8 8 = b :=
    (extractLsb'_append_above (0#16 ++ b ++ 0#4) 0x9#4 4 8).trans
      ((extractLsb'_append_above (0#16 ++ b) 0#4 0 8).trans BitVec.extractLsb'_append_eq_right)
  have hhi : field (encode (.emitByte b)) 16 16 = 0 :=
    (extractLsb'_append_above (0#16 ++ b ++ 0#4) 0x9#4 12 16).trans
      ((extractLsb'_append_above (0#16 ++ b) 0#4 8 16).trans BitVec.extractLsb'_append_eq_left)
  simp [decodeInternal, hop, hhi, hmid, hbyte]

theorem decodeInternal_encode {i : Instr} (hi : i.hostIssuable = false) : decodeInternal (encode i) = .ok i := by
  cases i
  case emitBit sel => exact decodeInternal_encode_emitBit sel
  case emitByte b => exact decodeInternal_encode_emitByte b
  case phCutout | phSyncZero | phPreamble | phStart | phData | phEnd => rfl
  all_goals cases hi

theorem decodeInternal_hostIssuable {w : Word} {i : Instr} (h : decodeInternal w = .ok i) :
    i.hostIssuable = false := by
  unfold decodeInternal at h
  split at h
  · split at h <;> cases h; rfl
  · split at h <;> cases h; rfl
  · split at h
    · split at h <;> cases h <;> rfl
    · cases h
  · cases h

theorem encode_of_decodeInternal {w : Word} {i : Instr} (h : decodeInternal w = .ok i) : encode i = w := by
  unfold decodeInternal at h
  split at h
  next hop =>
    split at h
    next hrsv =>
      cases h
      refine Eq.trans ?_ (emitBit_fields w)
      rw [hrsv, hop, encode, Sel.code_ofCode]; rfl
    · cases h
  next hop =>
    split at h
    next hrsv =>
      obtain ⟨hhi, hmid⟩ := hrsv
      cases h
      refine Eq.trans ?_ (emitByte_fields w)
      rw [hhi, hmid, hop, encode]; rfl
    · cases h
  next hop =>
    split at h
    next hrsv =>
      refine Eq.trans ?_ (phase_fields w)
      rw [hrsv, hop]
      split at h <;> cases h
      all_goals
        rename_i hph
        rw [hph]; rfl
    · cases h
  · cases h

/-- What the sequencer decodes: an internal operation, from its own word (R83). -/
theorem decodeInternal_eq_ok_iff {w : Word} {i : Instr} :
    decodeInternal w = .ok i ↔ i.hostIssuable = false ∧ encode i = w :=
  ⟨fun h => ⟨decodeInternal_hostIssuable h, encode_of_decodeInternal h⟩,
    fun ⟨hi, hw⟩ => hw ▸ decodeInternal_encode hi⟩

/-- What a port decodes: an operation it may issue, from its own word (R72, R83). -/
theorem decodeAt_eq_ok_iff {p : Port} {w : Word} {i : Instr} :
    decodeAt p w = .ok i ↔ i.wellFormedAt p = true ∧ encode i = w := by
  cases p
  case host => exact decodeHost_eq_ok_iff
  case sequencer => simp [decodeAt, decodeInternal_eq_ok_iff, Instr.wellFormedAt]

/-- No word spells both a host command and an internal operation: the internal `OP` values are reserved in `CMD`. -/
theorem not_decodeHost_ok_of_decodeInternal {w : Word} {i j : Instr} (hi : decodeInternal w = .ok i) :
    decodeHost w ≠ .ok j := by
  intro hj
  obtain ⟨hhost, rfl⟩ := decodeHost_eq_ok_iff.mp hj
  cases j
  case create | reset | encode | destroy => cases hi
  all_goals cases hhost

theorem decodeHost_encode_error {i : Instr} (hi : i.hostIssuable = false) : ∃ e, decodeHost (encode i) = .error e := by
  cases hd : decodeHost (encode i) with
  | error e => exact ⟨e, rfl⟩
  | ok j => exact absurd hd (not_decodeHost_ok_of_decodeInternal (decodeInternal_encode hi))

/-- The whole table reads an operation back from its word (R72, R83). -/
theorem decode_encode (i : Instr) : decode (encode i) = .ok i := by
  unfold decode
  cases hi : i.hostIssuable with
  | true => rw [decodeHost_encode hi]
  | false =>
    obtain ⟨e, he⟩ := decodeHost_encode_error hi
    rw [he, decodeInternal_encode hi]

/-- Settles O2: the table's decoder tries the host's map and then the sequencer's, whose words are disjoint. -/
theorem decodeOfEncodeIsTheOperation : Obligations.DecodeOfEncodeIsTheOperation :=
  fun i => ⟨decode_encode i, fun _ hp => decodeAt_eq_ok_iff.mpr ⟨hp, rfl⟩⟩

/-- Settles O3: both decoders match every field of the word. -/
theorem decodedWordIsTheWordOfTheOperation : Obligations.DecodedWordIsTheWordOfTheOperation := by
  intro p w i h
  obtain ⟨hp, hw⟩ := decodeAt_eq_ok_iff.mp h
  exact ⟨hw, hp⟩

/-- `CMD` decodes exactly the words of the four host commands (R72). -/
theorem decodeHost_isOk_iff (w : Word) : (∃ i, decodeHost w = .ok i) ↔ w = 1 ∨ w = 2 ∨ w = 3 ∨ w = 4 := by
  constructor
  · rintro ⟨i, h⟩
    obtain ⟨hi, rfl⟩ := decodeHost_eq_ok_iff.mp h
    cases i
    case create | reset | encode | destroy => decide
    all_goals cases hi
  · rintro (rfl | rfl | rfl | rfl) <;> exact ⟨_, rfl⟩

/-- Settles O4: a command decodes from its own word only, and the internal words are none of the four. -/
theorem commandRegisterTakesFourWords : Obligations.CommandRegisterTakesFourWords := by
  have hword : ∀ {w : Word} {i : Instr}, i.hostIssuable = true → (decodeHost w = .ok i ↔ w = encode i) := by
    intro w i hi; rw [decodeHost_eq_ok_iff, eq_comm (a := w)]; simp [hi]
  exact ⟨fun w => ⟨hword rfl, hword rfl, hword rfl, hword rfl, decodeHost_isOk_iff w⟩,
    fun w i hi ⟨j, hj⟩ => not_decodeHost_ok_of_decodeInternal hi hj⟩

/-- Settles O1: the twelve words, read by the decoders. -/
theorem handWrittenWordsDecode : Obligations.HandWrittenWordsDecode :=
  ⟨rfl, rfl, rfl, rfl, rfl, rfl, rfl, rfl, rfl, rfl, rfl, rfl⟩

end Sys2Proof

/-! ### The words a step finds waiting -/

namespace Sys2Proof.Machine

/-- The step runs the operation the oldest waiting word spells at its port (R70). -/
theorem step_run {s : State} {q : Issue} {rest : List Issue} {i : Instr} (hp : s.pending = q :: rest)
    (hd : decodeAt q.port q.word = .ok i) : step s = exec i (s.issued q rest) := by
  rw [step, fetch_run hp hd]; rfl

/-- The step refuses a word in `CMD` that spells no command (R73). -/
theorem step_reserved {s : State} {q : Issue} {rest : List Issue} {e : DecodeError} (hp : s.pending = q :: rest)
    (hh : q.port = .host) (hd : decodeHost q.word = .error e) :
    step s = .next (raise .reservedEncoding (s.issued q rest)) := by
  rw [step, fetch_reserved hp hh hd]; rfl

/-- Settles O6: the fetch takes the oldest waiting word, whose writes `State.load` makes. -/
theorem stepRunsTheDecodedOperation : Obligations.StepRunsTheDecodedOperation := by
  intro s q rest i hp hd
  rw [step_run hp hd, State.issued, State.load]
  cases q.port <;> rfl

/-- The port a word of the opcode table is placed at spells its operation there (R83). -/
theorem decodeAt_portOf_encode (i : Instr) : decodeAt (portOf (encode i)) (encode i) = .ok i := by
  unfold portOf
  cases hi : i.hostIssuable with
  | false => simp only [decodeInternal_encode hi, decodeAt]
  | true =>
    cases hd : decodeInternal (encode i) with
    | ok j => exact absurd (decodeHost_encode hi) (not_decodeHost_ok_of_decodeInternal hd)
    | error e => exact decodeHost_encode hi

/-- The word placed first is the word given. -/
theorem State.withFetchWord_toNat (s : State) (nbits : Nat) (w : Word) :
    s.withFetchWord nbits w.toNat = { s with pending := issueOfWord s w :: s.pending } := by
  rw [State.withFetchWord, BitVec.ofNat_toNat, BitVec.setWidth_eq]

/-- Settles O7: the operation's word waits first, at the port that decodes it. -/
theorem fetchWordRunsNext : Obligations.FetchWordRunsNext := by
  intro s i
  rw [State.withFetchWord_toNat]
  exact step_run rfl (decodeAt_portOf_encode i)

/-- A word whose `RSV` is nonzero or whose `OP` is not 1 to 4 spells no command (R72, R73). -/
theorem decodeHost_error_of_reserved {w : Word}
    (h : w.extractLsb' 4 28 ≠ 0 ∨ w.extractLsb' 0 4 = 0 ∨ 5 ≤ (w.extractLsb' 0 4).toNat) :
    ∃ e, decodeHost w = .error e := by
  cases hd : decodeHost w with
  | error e => exact ⟨e, rfl⟩
  | ok i =>
    obtain rfl | rfl | rfl | rfl := (decodeHost_isOk_iff w).mp ⟨i, hd⟩
    all_goals exact absurd h (by decide)

/-- Settles O9: the word spells no command, and the refusal sets the mark and the reason only. -/
theorem reservedCommandWordIsRefused : Obligations.ReservedCommandWordIsRefused := by
  intro s q rest hp hh hres
  obtain ⟨e, hd⟩ := decodeHost_error_of_reserved hres
  rw [step_reserved hp hh hd, State.issued, State.load, hh]
  rfl

/-- Settles O10: the word spells no command, and a refusal keeps the stream and the position. -/
theorem internalWordInCommandRegisterIsRefused : Obligations.InternalWordInCommandRegisterIsRefused := by
  intro s q rest i hp hh hi hw
  obtain ⟨e, hd⟩ := decodeHost_encode_error hi
  refine ⟨_, step_reserved hp hh (hw ▸ hd), ?_⟩
  simp [State.issued]

end Sys2Proof.Machine

/-! ### What the words and the argument registers hold -/

namespace Sys2Proof.Machine

/-! #### The symbol word -/

/-- The fields of a Symbol's word, at the places of R78. -/
theorem Symbol.word_fields (y : Symbol) :
    y.word.extractLsb' 0 15 = y.d0 ∧ y.word.extractLsb' 15 1 = y.l0 ∧
    y.word.extractLsb' 16 15 = y.d1 ∧ y.word.extractLsb' 31 1 = y.l1 := by
  have habove : ∀ k n, y.word.extractLsb' (15 + k) n = (y.l1 ++ y.d1 ++ y.l0).extractLsb' k n :=
    extractLsb'_append_above (y.l1 ++ y.d1 ++ y.l0) y.d0
  have habove' : ∀ k n, (y.l1 ++ y.d1 ++ y.l0).extractLsb' (1 + k) n = (y.l1 ++ y.d1).extractLsb' k n :=
    extractLsb'_append_above (y.l1 ++ y.d1) y.l0
  exact ⟨BitVec.extractLsb'_append_eq_right, (habove 0 1).trans BitVec.extractLsb'_append_eq_right,
    (habove 1 15).trans ((habove' 0 15).trans BitVec.extractLsb'_append_eq_right),
    (habove 16 1).trans ((habove' 15 1).trans BitVec.extractLsb'_append_eq_left)⟩

theorem Symbol.ofWord_word (y : Symbol) : Symbol.ofWord y.word = y := by
  obtain ⟨hd0, hl0, hd1, hl1⟩ := y.word_fields
  rw [Symbol.ofWord, hd0, hl0, hd1, hl1]

theorem Symbol.word_ofWord (w : Word) : (Symbol.ofWord w).word = w :=
  calc field w 31 1 ++ field w 16 15 ++ field w 15 1 ++ field w 0 15
    _ = field w 16 16 ++ field w 15 1 ++ field w 0 15 := by rw [field_append_field w 16 15 1]
    _ = field w 15 17 ++ field w 0 15 := by rw [field_append_field w 15 1 16]
    _ = field w 0 32 := field_append_field w 0 15 17
    _ = w := field_whole w

/-- Settles O5: the word joins the four fields, and a word is its four fields joined. -/
theorem symbolWordLayout : Obligations.SymbolWordLayout := by
  refine ⟨fun y => ?_, Symbol.word_ofWord⟩
  obtain ⟨hd0, hl0, hd1, hl1⟩ := y.word_fields
  exact ⟨hd0, hl0, hd1, hl1, y.ofWord_word⟩

/-! #### The arguments of CREATE and ENCODE -/

/-- `valid(args)` bounds every argument below the width of its CFG field (R8, R76, R108). -/
theorem valid_bounds {p : Params} {a : CfgArgs} (hp : p.Legal) (hv : valid p a = true) :
    a.preamble.toNat < 2 ^ 8 ∧ a.bit1.toNat < 2 ^ 15 ∧ a.bit0.toNat < 2 ^ 15 ∧ a.endBit.toNat < 2 ^ 15 ∧
    a.cutout.toNat < 2 ^ 15 := by
  obtain ⟨⟨-, -, -, hpre⟩, ⟨-, -, -, hb1⟩, ⟨-, -, -, hb0⟩, ⟨-, -, hcut⟩, -⟩ := hp
  simp only [valid, checkPreamble, checkCutout, checkBit1, checkBit0, checkEnd, inWindow, Bool.and_eq_true,
    Bool.or_eq_true, decide_eq_true_eq, beq_iff_eq] at hv
  obtain ⟨⟨⟨⟨⟨-, h1⟩, h2⟩, h3⟩, h4⟩, h5⟩ := hv
  have hc : a.cutout.toNat < 2 ^ 15 := by
    rcases h2 with h0 | hw
    · rw [h0]; decide
    · omega
  omega

/-- Settles O18: every argument fits its field, whose low bits are then the whole of it. -/
theorem storedConfigurationIsExact : Obligations.StoredConfigurationIsExact := by
  intro p a hp hv
  obtain ⟨hpre, hb1, hb0, hend, hcut⟩ := valid_bounds hp hv
  have hstored : a.toCfg.bidiCutoutDuration.toNat = a.cutout.toNat := toNat_lowBits hcut
  refine ⟨toNat_lowBits hpre, toNat_lowBits hb1, toNat_lowBits hb0, toNat_lowBits hend, hstored, ?_⟩
  rw [← hstored, Cfg.cutoutFlag, bne_iff_ne, ne_eq, ← BitVec.toNat_inj]
  rfl

/-- The packet of a list of bytes of length N is the list itself (R51, R75). -/
theorem State.packet_of_bytes {s : State} {bs : List Byte} (hlen : s.packetLen = bs.length)
    (hpkt : s.pktArgs.pkt = Memory.ofBytes bs) : s.packet = bs := by
  refine List.ext_getElem ((State.packet_length s).trans hlen) fun n _ hn => ?_
  simp [State.packet, hpkt, Memory.read_ofBytes, hn]

/-- `ARG_FLAGS` of a CREATE line holds `level0` and `zerobit` in its two low bits (R74, R84). -/
theorem CreateLine.args_flags (c : CreateLine) :
    c.args.polarityLevel0 = c.level0 ∧ c.args.syncZeroEnabled = c.zerobit ∧ c.args.reservedFlags = 0 := by
  have hres : c.args.reservedFlags = 0#30 :=
    (extractLsb'_append_above (0#30 ++ BitVec.ofBool c.zerobit) c.level0 1 30).trans
      BitVec.extractLsb'_append_eq_left
  have hsync : c.args.syncZeroEnabled = (0#30 ++ BitVec.ofBool c.zerobit).getLsbD 0 :=
    BitVec.getLsbD_append (x := 0#30 ++ BitVec.ofBool c.zerobit) (y := c.level0)
  rw [BitVec.getLsbD_append] at hsync
  exact ⟨BitVec.extractLsb'_append_eq_right, by simpa using hsync, hres⟩

/-- Settles O56: the length of fewer than 2^32 bytes fits `ARG_LEN`, and the flag bits of a CREATE line are joined
from its two operands. -/
theorem hostLinesSetTheArguments : Obligations.HostLinesSetTheArguments := by
  refine ⟨fun s bs hlen => ⟨State.packet_of_bytes ?_ rfl, rfl⟩, fun s c => ?_⟩
  · simpa [State.packetLen, HostLine.issue] using hlen
  · exact ⟨rfl, rfl, rfl, rfl, rfl, rfl, CreateLine.args_flags c⟩

end Sys2Proof.Machine

/-! ### The checks of a configuration and the symbols it gives -/

namespace Sys2Proof.Machine

/-! #### The refusals of CREATE that come before the field checks -/

/-- CREATE without a configuration reports INVALID_ARG, and looks at no other argument (R101). -/
theorem create_absent {s : State} (hc : s.created = false) (hp : s.cfgArgs.present = false) :
    create s = s.withStatus statusInvalidArg := by
  simp only [create, hc, hp, Bool.false_eq_true, if_false, if_true]

/-- CREATE of a present configuration with a reserved flag bit set is refused (R107). -/
theorem create_reservedFlags {s : State} (hc : s.created = false) (hp : s.cfgArgs.present = true)
    (hf : s.cfgArgs.reservedFlags ≠ 0) : create s = raise .reservedEncoding s := by
  simp only [create, hc, hp, Bool.false_eq_true, Bool.true_eq_false, if_false, if_pos hf]

/-- Settles O12: the presence check is the first one after the lifecycle's. -/
theorem absentConfigurationIsInvalidArg : Obligations.AbsentConfigurationIsInvalidArg :=
  fun _ hc hp => congrArg Host.Outcome.next (create_absent hc hp)

/-- Settles O13: the flags are looked at after the presence check, and no field check reads them. -/
theorem reservedFlagsRefuseCreate : Obligations.ReservedFlagsRefuseCreate :=
  ⟨fun _ hc hp hf => congrArg Host.Outcome.next (create_reservedFlags hc hp hf),
    fun s hc hp _ => absentConfigurationIsInvalidArg s hc hp,
    fun _ _ _ => rfl⟩

/-! #### The named checks -/

theorem inWindow_eq_true_iff {lo hi : Nat} {v : Word} : inWindow lo hi v = true ↔ lo ≤ v.toNat ∧ v.toNat ≤ hi := by
  rw [inWindow, Bool.and_eq_true, decide_eq_true_eq, decide_eq_true_eq]

/-- Check `V_CUTOUT` passes on 0, which means disabled, and on its window (R103). -/
theorem checkCutout_eq_true_iff {p : Params} {a : CfgArgs} :
    checkCutout p a = true ↔ a.cutout.toNat = 0 ∨ p.cutMin ≤ a.cutout.toNat ∧ a.cutout.toNat ≤ p.cutMax := by
  have hzero : a.cutout = 0 ↔ a.cutout.toNat = 0 := BitVec.toNat_inj.symm
  rw [checkCutout, Bool.or_eq_true, beq_iff_eq, hzero, inWindow_eq_true_iff]

theorem checkEnd_eq_true_iff {p : Params} {a : CfgArgs} : checkEnd p a = true ↔ a.endBit.toNat ≤ p.b1Max :=
  decide_eq_true_iff

/-- Settles O14: `valid` joins the six checks, four of which are windows. -/
theorem validIsTheNamedChecks : Obligations.ValidIsTheNamedChecks := by
  intro p a
  simp only [valid, Bool.and_eq_true, and_assoc, checkPresent, checkPreamble, checkBit1, checkBit0,
    inWindow_eq_true_iff, checkCutout_eq_true_iff, checkEnd_eq_true_iff]

/-! #### The derived symbols -/

/-- `nL = 1 - L` is the other level (R109). -/
theorem one_sub_level (l : Level) : 1 - l = if l = 0 then 1 else 0 := by
  obtain rfl | rfl := BitVec.eq_zero_or_eq_one l <;> rfl

/-- A symbol's two halves are at opposite levels (R109). -/
theorem levelPair_eq (l : Level) (d0 d1 : Dur) : levelPair l d0 d1 = ⟨d0, l, d1, if l = 0 then 1 else 0⟩ := by
  rw [levelPair, one_sub_level]

/-- `E`, with the end duration 0 as the first case (R112). -/
theorem Cfg.endDuration_eq (c : Cfg) :
    c.endDuration = if c.endBitDuration = 0 then c.bit1Duration else c.endBitDuration :=
  ite_not _ _ _

/-- Both forms of SYM.END are SYM.ONE when the end duration is 0 (R112). -/
theorem endSymbol_eq_one {c : Cfg} (h : c.endBitDuration = 0) (f : EndSymbolForm) :
    endSymbol f c = (derive f c).one := by
  have hE : c.endDuration = c.bit1Duration := by rw [c.endDuration_eq, if_pos h]
  cases f <;> rw [endSymbol, hE] <;> rfl

/-- Settles O19: each symbol is a pair of halves at opposite levels, and `E` is the bit-1 duration when the end
duration is 0. -/
theorem derivedSymbols : Obligations.DerivedSymbols := by
  intro c l nl e
  have he : c.endDuration = e := c.endDuration_eq
  refine ⟨fun f => ⟨levelPair_eq _ _ _, levelPair_eq _ _ _, levelPair_eq _ _ _⟩, ?_, ?_, endSymbol_eq_one⟩
  · exact he ▸ levelPair_eq l c.endDuration c.endDuration
  · exact he ▸ levelPair_eq l c.bit1Duration c.endDuration

end Sys2Proof.Machine

/-! ### The emitters -/

namespace Sys2Proof.Machine

/-! #### EMIT_BIT -/

/-- EMIT_BIT as a step of its own: the pair it returns follows the one `SymWrite` (R120). -/
theorem returnEmit_emitBit (sel : Sel) (s : State) :
    returnEmit (emitBit sel s) =
      if s.symAnswer then (s.accepted (s.sym.get sel)).returned (.emit 1 .complete)
      else s.notAccepted.returned (.emit 0 .full) := by
  cases h : s.symAnswer with
  | true => rw [emitBit_accepted h, if_pos rfl]; rfl
  | false => rw [emitBit_full h, if_neg Bool.false_ne_true]; rfl

/-- Settles O22: the answer of the one `SymWrite` decides, and the symbol is the entry `SEL` of the table. -/
theorem emitBitWritesOneSymbolOrNothing : Obligations.EmitBitWritesOneSymbolOrNothing := by
  refine ⟨⟨rfl, rfl, rfl, rfl⟩, fun s sel => (congrArg Host.Outcome.next (returnEmit_emitBit sel s)).trans ?_⟩
  cases sel <;> rfl

/-! #### EMIT_BYTE: the bits and the cursor -/

/-- The byte of an EMIT_BYTE word stands in bits 15:8 (R83). -/
theorem encode_emitByte (b : Byte) : encode (.emitByte b) = 0x0000#16 ++ b ++ 0x09#8 :=
  BitVec.append_assoc (x₁ := 0#16 ++ b) (x₂ := 0#4) (x₃ := 0x9#4)

/-- Position `j` of a byte's symbols is bit `7 - j` (R122). -/
theorem bitsOf_eq_map_range (b : Byte) : bitsOf b = (List.range 8).map fun j => selOfBit (b.getLsbD (7 - j)) := rfl

theorem SymTab.get_selOfBit (t : SymTab) (v : Bool) : t.get (selOfBit v) = if v then t.one else t.zero := by
  cases v <;> rfl

theorem SymTab.symbols_append (t : SymTab) (l m : List Sel) : t.symbols (l ++ m) = t.symbols l ++ t.symbols m :=
  List.map_append

/-- The symbols of the `k` bits from position `c` on. -/
theorem symbols_take_drop_bitsOf (t : SymTab) (b : Byte) {c k : Nat} (h : c + k ≤ 8) :
    t.symbols (((bitsOf b).drop c).take k) =
      (List.range k).map fun j => if b.getLsbD (7 - (c + j)) then t.one else t.zero := by
  refine List.ext_getElem (by simp [SymTab.symbols, bitsOf_length]; omega) fun j _ _ => ?_
  simp [SymTab.symbols, bitsOf_eq_map_range, SymTab.get_selOfBit]

/-- The buffer accepts no more than the unsent bits. -/
theorem State.bitCursor_add_accepts_le (s : State) : s.bitCursor.toNat + s.accepts (8 - s.bitCursor.toNat) ≤ 8 := by
  have hk := s.accepts_le (8 - s.bitCursor.toNat)
  have hc := s.bitCursor.isLt
  omega

/-- The cursor goes from 8 back to 0 (R122). -/
theorem State.bitCursor_after (s : State) (k : Nat) :
    BitVec.ofNat 3 (s.bitCursor.toNat + k) =
      if k = 8 - s.bitCursor.toNat then 0 else BitVec.ofNat 3 (s.bitCursor.toNat + k) := by
  have hc := s.bitCursor.isLt
  split
  next hk => rw [hk, show s.bitCursor.toNat + (8 - s.bitCursor.toNat) = 8 by omega]; rfl
  next => rfl

/-- Settles O23: `emitByte_eq`, with the symbols written out bit by bit and the cursor's return to 0. -/
theorem emitByteWritesTheUnsentBits : Obligations.EmitByteWritesTheUnsentBits := by
  refine ⟨fun b => encode_emitByte b ▸ decodeInternal_encode_emitByte b, fun s b => ?_⟩
  intro n k
  rw [← symbols_take_drop_bitsOf s.sym b s.bitCursor_add_accepts_le, ← s.bitCursor_after k]
  exact congrArg (Host.Outcome.next ∘ returnEmit) (emitByte_eq b s)

/-! #### EMIT_BYTE: the calls for one byte -/

theorem emitVerdict_eq_complete_iff {n k : Nat} : emitVerdict n k = .complete ↔ k = n := by
  by_cases h : k = n <;> simp [emitVerdict, h]

theorem emitVerdict_eq_full_iff {n k : Nat} : emitVerdict n k = .full ↔ k ≠ n := by
  by_cases h : k = n <;> simp [emitVerdict, h]

/-- A call that completes the byte has written all the unsent bits (R123). -/
theorem emitByte_complete {b : Byte} {s : State} (h : (emitByte b s).verdict = .complete) :
    (emitByte b s).count = 8 - s.bitCursor.toNat ∧ (emitByte b s).st.bitCursor = 0 ∧
    (emitByte b s).st.out = s.out ++ s.sym.symbols ((bitsOf b).drop s.bitCursor.toNat) := by
  rw [emitByte_eq] at h ⊢
  have hk : s.accepts (8 - s.bitCursor.toNat) = 8 - s.bitCursor.toNat := emitVerdict_eq_complete_iff.mp h
  refine ⟨hk, ?_, ?_⟩
  · exact (s.bitCursor_after _).trans (if_pos hk)
  · simp only [hk]
    rw [List.take_of_length_le (by rw [List.length_drop, bitsOf_length])]

/-- A call that finds the buffer full has written the next `count` bits and keeps the place after them (R123). -/
theorem emitByte_full {b : Byte} {s : State} (h : (emitByte b s).verdict = .full) :
    (emitByte b s).st.bitCursor.toNat = s.bitCursor.toNat + (emitByte b s).count ∧
    (emitByte b s).st.sym = s.sym ∧
    (emitByte b s).st.out =
      s.out ++ s.sym.symbols (((bitsOf b).drop s.bitCursor.toNat).take (emitByte b s).count) := by
  rw [emitByte_eq] at h ⊢
  have hk : s.accepts (8 - s.bitCursor.toNat) ≠ 8 - s.bitCursor.toNat := emitVerdict_eq_full_iff.mp h
  have hle := s.bitCursor_add_accepts_le
  exact ⟨(BitVec.toNat_ofNat _ _).trans (Nat.mod_eq_of_lt (by omega)), rfl, rfl⟩

/-- The calls for one byte, begun at any bit: together they write the bits from there on (R123). -/
theorem emitByteCalls_eq_some {b : Byte} {n k : Nat} {s t : State} (h : emitByteCalls b n s = some (k, t)) :
    s.bitCursor.toNat + k = 8 ∧ t.bitCursor = 0 ∧
    t.out = s.out ++ s.sym.symbols ((bitsOf b).drop s.bitCursor.toNat) := by
  induction n generalizing s k with
  | zero => cases h
  | succ n ih =>
    rw [emitByteCalls] at h
    cases hv : (emitByte b s).verdict with
    | complete =>
      simp only [hv] at h
      cases h
      obtain ⟨hcount, hcur, hout⟩ := emitByte_complete hv
      have hc := s.bitCursor.isLt
      exact ⟨by omega, hcur, hout⟩
    | full =>
      simp only [hv, Option.map_eq_some_iff] at h
      obtain ⟨⟨j, u⟩, hrest, heq⟩ := h
      cases heq
      obtain ⟨hcur, hsym, hout⟩ := emitByte_full hv
      obtain ⟨hsum, hcur', hout'⟩ := ih hrest
      refine ⟨by omega, hcur', ?_⟩
      rw [hout', hout, hsym, hcur, List.append_assoc, ← SymTab.symbols_append, ← List.drop_drop,
        List.take_append_drop]

/-- Settles O24: the calls begin at bit 0 of the byte. -/
theorem emitByteCallsAddUpToEight : Obligations.EmitByteCallsAddUpToEight := by
  intro b n k s t hs h
  obtain ⟨hk, hcur, hout⟩ := emitByteCalls_eq_some h
  have h0 : s.bitCursor.toNat = 0 := congrArg BitVec.toNat hs
  rw [h0] at hk hout
  exact ⟨by omega, hcur, hout⟩

end Sys2Proof.Machine

/-! ### How many of the next symbols the buffer accepts -/

namespace Sys2Proof.Machine

/-- The buffer fills within the first `m` symbols: those after them are never offered. -/
theorem State.accepts_add_of_full {s : State} {m : Nat} (hm : s.accepts m ≠ m) (n : Nat) :
    s.accepts (m + n) = s.accepts m :=
  (Draws.accepts_add _ m n _).trans (if_neg hm)

theorem State.drawsAfter_add_of_full {s : State} {m : Nat} (hm : s.accepts m ≠ m) (n : Nat) :
    s.drawsAfter (m + n) = s.drawsAfter m := by
  have hle := s.accepts_le m
  rw [State.drawsAfter, State.drawsAfter, State.accepts_add_of_full hm, if_neg hm, if_neg (by omega)]

theorem State.drawsAfter_of_accepted {s : State} {m : Nat} (hm : s.accepts m = m) :
    s.drawsAfter m = s.symDraws.dropped m := by
  rw [State.drawsAfter, if_pos hm]

/-- The first `m` symbols are accepted, and `t` stands after them: the others are counted from `t`. -/
theorem State.accepts_add_of_accepted {s t : State} {m : Nat} (hm : s.accepts m = m)
    (ht : t.symDraws = s.drawsAfter m) (n : Nat) : s.accepts (m + n) = m + t.accepts n := by
  refine (Draws.accepts_add _ m n _).trans ((if_pos hm).trans ?_)
  rw [← State.drawsAfter_of_accepted hm, ← ht, State.accepts]

theorem State.drawsAfter_add_of_accepted {s t : State} {m : Nat} (hm : s.accepts m = m)
    (ht : t.symDraws = s.drawsAfter m) (n : Nat) : s.drawsAfter (m + n) = t.drawsAfter n := by
  rw [State.drawsAfter, State.drawsAfter, State.accepts_add_of_accepted hm ht, ht, State.drawsAfter_of_accepted hm,
    Draws.dropped_dropped]
  congr 1
  split <;> split <;> omega

/-- Fewer symbols offered: as many accepted, or all of them. -/
theorem State.accepts_of_le {m n : Nat} (h : m ≤ n) (s : State) : s.accepts m = min m (s.accepts n) := by
  obtain ⟨j, rfl⟩ := Nat.exists_eq_add_of_le h
  have hle := s.accepts_le m
  by_cases hm : s.accepts m = m
  · rw [State.accepts_add_of_accepted (t := { s with symDraws := s.drawsAfter m }) hm rfl, hm]; omega
  · rw [State.accepts_add_of_full hm]; omega

/-- ENCODE and its handlers take no more answers than there are symbols to offer. -/
theorem State.drawsAfter_taken_le (s : State) (n : Nat) : (s.drawsAfter n).taken ≤ s.symDraws.taken + n := by
  have hle := s.accepts_le n
  simp only [State.drawsAfter, Draws.dropped]
  split <;> omega

end Sys2Proof.Machine

/-! ### The phase handlers -/

namespace Sys2Proof.Machine

/-- A phase of `total` equal symbols as a step of its own (R150 to R153): its result, its suspension and its frame. -/
theorem returnPhase_emitPhase (sel : Sel) (total : Nat) (nxt : Phase) (s : State) :
    returnPhase (emitPhase sel total nxt s) =
      let n := total - s.progress.toNat
      let k := s.accepts n
      { s with
        out := s.out ++ List.replicate k (s.sym.get sel)
        symDraws := s.drawsAfter n
        phase := if k = n then nxt else s.phase
        progress := if k = n then 0 else s.progress + BitVec.ofNat 8 k
        opReturn := some (.phase k (if k = n then .next else .full)) } := by
  rw [emitPhase_eq]; rfl

/-- Settles O25: a phase of 4 cutout symbols, or of none. -/
theorem cutoutPhase : Obligations.CutoutPhase :=
  ⟨rfl, fun s => congrArg Host.Outcome.next (returnPhase_emitPhase .cutout _ .syncZero s)⟩

/-- Settles O26: a phase of one zero symbol, or of none. -/
theorem syncZeroPhase : Obligations.SyncZeroPhase :=
  ⟨rfl, fun s => congrArg Host.Outcome.next (returnPhase_emitPhase .zero _ .preamble s)⟩

/-- Settles O27: a phase of `CFG.preamble_bits` one symbols. -/
theorem preamblePhase : Obligations.PreamblePhase :=
  ⟨rfl, fun s => congrArg Host.Outcome.next (returnPhase_emitPhase .one _ .start s)⟩

/-- Settles O28: a phase of one zero symbol. -/
theorem startPhase : Obligations.StartPhase :=
  ⟨rfl, fun s => congrArg Host.Outcome.next (returnPhase_emitPhase .zero _ .data s)⟩

/-- PH_DATA as a step, on a byte of the packet: it returns what the handler returns (R154). -/
theorem exec_phData_of_lt {s : State} (h : s.byteIndex.toNat < s.packetLen) :
    exec .phData s =
      .next (returnPhase (phDataByte (Memory.read s.pktArgs.pkt s.byteIndex.toNat) s)) := by
  simp only [exec, execPhData, phData_eq, if_pos h]

theorem toNat_add_one_of_lt {i n : BitVec 32} (h : i.toNat < n.toNat) : (i + 1).toNat = i.toNat + 1 := by
  have := n.isLt
  rw [BitVec.toNat_add, show BitVec.toNat (1 : BitVec 32) = 1 from rfl, Nat.mod_eq_of_lt (by omega)]

/-- The test of the last byte (R154), as one of numbers. -/
theorem add_one_eq_iff_of_lt {i n : BitVec 32} (h : i.toNat < n.toNat) : i + 1 = n ↔ i.toNat + 1 = n.toNat := by
  rw [← toNat_add_one_of_lt h, BitVec.toNat_inj]

/-- Settles O29: `phDataByte_eq`, with the cursor's return to 0 and the test of the last byte read as numbers. -/
theorem dataPhase : Obligations.DataPhase := by
  refine ⟨rfl, fun s hlt => ?_⟩
  intro b n k
  rw [exec_phData_of_lt hlt, ← s.bitCursor_after k, ← if_congr (add_one_eq_iff_of_lt hlt) rfl rfl, phDataByte_eq]
  rfl

/-- Settles O31: the answer of the one `SymWrite` decides. -/
theorem endPhase : Obligations.EndPhase := by
  refine ⟨rfl, fun s => congrArg Host.Outcome.next ?_⟩
  rw [phEnd_eq]
  cases s.symAnswer <;> rfl

end Sys2Proof.Machine

/-! ### The dispatch loop ends by itself -/

namespace Sys2Proof.Machine

/-- How many handlers ENCODE may still run from a phase on, `data` of them from Data on (R141). -/
def Phase.handlersLeft (data : Nat) : Phase → Nat
  | .cutout => data + 4
  | .syncZero => data + 3
  | .preamble => data + 2
  | .start => data + 1
  | .data => data
  | .endBit => 1

/-- How many handlers ENCODE may still run (R148): from Data on there are two for each byte left, the last of them
End; beyond the packet PH_DATA itself is the last. -/
def State.handlersLeft (s : State) : Nat :=
  s.phase.handlersLeft (max 1 (2 * (s.packetLen - s.byteIndex.toNat)))

theorem State.handlersLeft_pos (s : State) : 0 < s.handlersLeft := by
  unfold State.handlersLeft
  cases s.phase <;> simp [Phase.handlersLeft]

/-- ENCODE's own bound on its loop covers every position: an accepted packet has at least one byte. -/
theorem State.EncodeAccepted.handlersLeft_le_encodeBound {s : State} (h : s.EncodeAccepted) :
    s.latched.handlersLeft ≤ encodeBound s := by
  obtain ⟨-, -, ⟨hlen, -⟩, -⟩ := h
  unfold State.packetLen at hlen
  simp only [State.handlersLeft, encodeBound, State.packetLen, State.latched_fields]
  cases s.phase <;> simp only [Phase.handlersLeft] <;> omega

/-- A completed phase of fixed length moves to its successor, with `byte_index` and the packet kept. -/
theorem emitPhase_completed {sel : Sel} {total : Nat} {nxt : Phase} {s : State} {r : PhaseRet}
    (h : emitPhase sel total nxt s = r) (hv : r.verdict = .next) :
    r.st.phase = nxt ∧ r.st.byteIndex = s.byteIndex ∧ r.st.packetLen = s.packetLen := by
  subst h
  by_cases hk : s.accepts (total - s.progress.toNat) = total - s.progress.toNat
  · rw [emitPhase_next hk]; exact ⟨rfl, rfl, rfl⟩
  · rw [emitPhase_full hk] at hv; cases hv

/-- A completed PH_DATA has one byte less to go, and moves to End after the last (R154). -/
theorem phData_completed {s : State} {r : PhaseRet} (h : phData s = .ok r) (hv : r.verdict = .next) :
    s.byteIndex.toNat < s.packetLen ∧ r.st.byteIndex.toNat = s.byteIndex.toNat + 1 ∧
    r.st.packetLen = s.packetLen ∧
    r.st.phase = if s.byteIndex.toNat + 1 = s.packetLen then .endBit else .start := by
  rw [phData_eq] at h
  split at h
  next hlt =>
    cases h
    by_cases hk : s.accepts (8 - s.bitCursor.toNat) = 8 - s.bitCursor.toNat
    · rw [phDataByte_next hk]
      exact ⟨hlt, toNat_add_one_of_lt hlt, rfl, if_congr (add_one_eq_iff_of_lt hlt) rfl rfl⟩
    · rw [phDataByte_full hk] at hv; cases hv
  next => cases h

/-- A handler that answers `next` leaves fewer handlers to run. -/
theorem handlersLeft_after_dispatch {s : State} {r : PhaseRet} (h : dispatch s = .ok r) (hv : r.verdict = .next) :
    r.st.handlersLeft < s.handlersLeft := by
  unfold dispatch at h
  unfold State.handlersLeft
  cases hp : s.phase <;> rw [hp] at h
  case data =>
    obtain ⟨hlt, hidx, hlen, hph⟩ := phData_completed h hv
    rw [hph, hidx, hlen]
    split <;> simp only [Phase.handlersLeft] <;> omega
  case endBit =>
    obtain ⟨hfull, -⟩ | ⟨hdone, -⟩ := phEnd_successor (Except.ok.inj h)
    · rw [hv] at hfull; cases hfull
    · rw [hv] at hdone; cases hdone
  case cutout | syncZero | preamble | start =>
    obtain ⟨hph, hidx, hlen⟩ := emitPhase_completed (Except.ok.inj h) hv
    rw [hph, hidx, hlen]
    exact Nat.lt_succ_self _

/-- The only fault of a handler is PH_DATA's, beyond the packet (R52). -/
theorem dispatch_error {s : State} {f : Fault} (h : dispatch s = .error f) : f = .pktIndexOutOfRange := by
  unfold dispatch at h
  cases hp : s.phase <;> rw [hp] at h
  case data =>
    simp only [phData_eq] at h
    split at h <;> cases h
    rfl
  all_goals cases h

/-- With enough handlers allowed, the loop never reaches its bound, in any state. -/
theorem encodeLoop_ne_dispatchBound {n : Nat} {s : State} (hn : s.handlersLeft ≤ n) (written : Nat) :
    encodeLoop n written s ≠ .fault .dispatchBound := by
  induction n generalizing written s with
  | zero => exact absurd hn (Nat.not_le.mpr s.handlersLeft_pos)
  | succ n ih =>
    rw [encodeLoop]
    cases hd : dispatch s with
    | error f => rw [dispatch_error hd]; exact nofun
    | ok r =>
      cases hv : r.verdict <;> simp only [hv]
      case full | done => exact nofun
      case next => exact ih (by have := handlersLeft_after_dispatch hd hv; omega) _

/-- An accepted ENCODE runs its loop (R141). -/
theorem State.EncodeAccepted.execEncode_eq {s : State} (h : s.EncodeAccepted) :
    execEncode s = encodeLoop (encodeBound s) 0 s.latched := by
  rw [execEncode, (checkEncodeArgs_eq_none_iff s).mpr h]

/-- A refused ENCODE changes nothing but the refusal mark and its reason (R142, R206). -/
theorem execEncode_of_refused {s : State} {r : RefusalReason} (h : checkEncodeArgs s = some r) :
    execEncode s = .next (raise r s) := by
  rw [execEncode, h]

/-- Settles O40: a refused ENCODE runs no loop, and an accepted one has at least one byte, so its bound covers the
handlers left. -/
theorem encodeNeverReachesDispatchBound : Obligations.EncodeNeverReachesDispatchBound := by
  intro s
  change execEncode s ≠ _
  cases hc : checkEncodeArgs s with
  | some r => rw [execEncode_of_refused hc]; exact nofun
  | none =>
    have ha := (checkEncodeArgs_eq_none_iff s).mp hc
    rw [ha.execEncode_eq]
    exact encodeLoop_ne_dispatchBound ha.handlersLeft_le_encodeBound 0

end Sys2Proof.Machine

/-! ### The stream of a packet cycle -/

namespace Sys2Proof.Machine

/-- At the start of a packet, in Cutout or SyncZero, the whole stream remains (R156). -/
theorem State.remaining_of_start {s : State} (hph : s.phase = .cutout ∨ s.phase = .syncZero) (hpr : s.progress = 0)
    (pkt : List Byte) : s.remaining pkt = stream s.cfg s.cutoutEnabled pkt s.isFirst := by
  have h0 : s.progress.toNat = 0 := by rw [hpr]; rfl
  have hsync : List.replicate (need s.cfg s.cutoutEnabled .syncZero) Sel.zero =
      if s.cfg.syncZeroEnabled then [.zero] else [] := by
    simp only [need]; split <;> rfl
  rcases hph with h | h
  · have hcut : List.replicate (need s.cfg s.cutoutEnabled .cutout) Sel.cutout =
        if s.cutoutEnabled && !s.isFirst then List.replicate 4 .cutout else [] := by
      simp only [need, State.isFirst, h]; cases s.cutoutEnabled <;> rfl
    simp only [State.remaining, h, h0, Nat.sub_zero, hcut, hsync, stream]
    rfl
  · have hcut : (if s.cutoutEnabled && !s.isFirst then List.replicate 4 Sel.cutout else []) = [] := by
      simp [State.isFirst, h]
    simp only [State.remaining, h, h0, Nat.sub_zero, hcut, hsync, stream]
    rfl

/-- Settles O41: with no packet latched the position is the start of Cutout or SyncZero. -/
theorem cycleStartsWithTheWholeStream : Obligations.CycleStartsWithTheWholeStream := by
  intro s pkt hs hstart
  obtain ⟨hph, hpr⟩ := (hs.position hstart.1).unlatched hstart.2
  exact State.remaining_of_start hph hpr pkt

theorem dataAndEnd_length (pkt : List Byte) : (dataAndEnd pkt).length = 9 * pkt.length + 1 := by
  induction pkt with
  | nil => rfl
  | cons b pkt ih =>
    simp only [dataAndEnd, List.flatMap_cons, List.append_assoc, List.length_append, List.length_cons] at ih ⊢
    rw [show (byteFrame b).length = 9 from rfl]
    omega

/-- Settles O42: the length of each part. -/
theorem symbolsOfACycle : Obligations.SymbolsOfACycle := by
  intro c cut pkt first
  have hcut : (if cut && !first then List.replicate 4 Sel.cutout else []).length =
      if cut = true ∧ first = false then 4 else 0 := by cases cut <;> cases first <;> rfl
  have hsync : (if c.syncZeroEnabled then [Sel.zero] else []).length = if c.syncZeroEnabled then 1 else 0 := by
    split <;> rfl
  simp only [stream, List.length_append, hcut, hsync, List.length_replicate, dataAndEnd_length]
  omega

/-! #### The reader recovers the packet -/

/-- Under `B1_MAX < B0_MIN` a zero symbol differs from a one and from the end symbol in the second half: it is at least
`B0_MIN` long there, and they are at most `B1_MAX` (R160). -/
theorem derive_ne_zero {p : Params} {c : Cfg} (hc : c.Legal p) (hp : p.b1Max < p.b0Min) (f : EndSymbolForm) :
    (derive f c).one ≠ (derive f c).zero ∧ (derive f c).endBit ≠ (derive f c).zero := by
  obtain ⟨-, ⟨-, h1⟩, ⟨h0, -⟩, hend, -⟩ := hc
  have hE : c.endDuration.toNat ≤ p.b1Max := by unfold Cfg.endDuration; split <;> assumption
  have hd1 : (derive f c).endBit.d1 = c.endDuration := by cases f <;> rfl
  constructor
  · intro h
    have : c.bit1Duration.toNat = c.bit0Duration.toNat := congrArg (·.d1.toNat) h
    omega
  · intro h
    have : c.endDuration.toNat = c.bit0Duration.toNat := hd1 ▸ congrArg (·.d1.toNat) h
    omega

/-- The reader's byte from the eight symbols of a byte (R160). -/
theorem readByte_bitsOf {t : SymTab} (h : t.one ≠ t.zero) (b : Byte) :
    readByte t.one (t.symbols (bitsOf b)) = b := by
  have hbit : ∀ n, (if t.get (selOfBit (b.getLsbD n)) = t.one then (1 : Byte) else 0) =
      (BitVec.ofBool (b.getLsbD n)).setWidth 8 := by
    intro n
    rw [SymTab.get_selOfBit]
    cases b.getLsbD n
    · simp [h.symm]
    · simp
  simp only [readByte, SymTab.symbols, bitsOf, List.map_cons, List.map_nil, List.foldl_cons, List.foldl_nil, hbit]
  refine BitVec.eq_of_getLsbD_eq fun i hi => ?_
  interval_cases i <;> simp

/-- The reader's last step recovers the bytes up to the end symbol (R160). -/
theorem readBytes_dataAndEnd {t : SymTab} (h1 : t.one ≠ t.zero) (pkt : List Byte) :
    readBytes t.one t.zero (t.symbols (dataAndEnd pkt)) = pkt := by
  induction pkt with
  | nil => rfl
  | cons b pkt ih =>
    have hcons : t.symbols (dataAndEnd (b :: pkt)) =
        t.zero :: (t.symbols (bitsOf b) ++ t.symbols (dataAndEnd pkt)) := by
      rw [← SymTab.symbols_append, dataAndEnd, List.flatMap_cons, List.append_assoc]; rfl
    have hread : ∀ l, readBytes t.one t.zero (t.zero :: (t.symbols (bitsOf b) ++ l)) =
        readByte t.one (t.symbols (bitsOf b)) :: readBytes t.one t.zero l := fun l => if_pos rfl
    rw [hcons, hread, readByte_bitsOf h1, ih]

/-- The reader drops the parts before the data bytes by their lengths (R160). -/
theorem readStream_stream (c : Cfg) (cut first : Bool) (t : SymTab) (pkt : List Byte) :
    readStream c cut t first (t.symbols (stream c cut pkt first)) =
      readBytes t.one t.zero (t.symbols (dataAndEnd pkt)) := by
  have hcut : (t.symbols (if cut && !first then List.replicate 4 .cutout else [])).length =
      if cut && !first then 4 else 0 := by split <;> rfl
  have hsync : (t.symbols (if c.syncZeroEnabled then [.zero] else [])).length =
      if c.syncZeroEnabled then 1 else 0 := by split <;> rfl
  have hpre : (t.symbols (List.replicate c.preambleBits.toNat .one)).length = c.preambleBits.toNat := by
    rw [SymTab.symbols_replicate, List.length_replicate]
  simp only [readStream, stream, SymTab.symbols_append]
  rw [List.drop_left' hcut, List.drop_left' hsync, List.drop_left' hpre]

/-- Settles O44: the durations tell zero from one and from end, the head is dropped by its length, and the bytes are
read back one by one. -/
theorem streamReadsBackThePacket : Obligations.StreamReadsBackThePacket := by
  intro p c f cut first pkt hc hp
  obtain ⟨hone, hend⟩ := derive_ne_zero hc hp f
  exact ⟨hone, hend, (readStream_stream c cut first _ pkt).trans (readBytes_dataAndEnd hone pkt)⟩

end Sys2Proof.Machine

/-! ### ENCODE inside a packet cycle -/

namespace Sys2Proof.Machine

/-- The registers ENCODE's loop may change (R141). -/
def State.sameButResults (s t : State) : Prop :=
  t = { s with
    phase := t.phase, progress := t.progress, byteIndex := t.byteIndex, bitCursor := t.bitCursor,
    out := t.out, symDraws := t.symDraws, pktLatch := t.pktLatch, resWritten := t.resWritten,
    resState := t.resState }

theorem State.sameBut.trans_results {s t u : State} (h : s.sameBut t) (h' : t.sameButResults u) :
    s.sameButResults u := by
  unfold State.sameBut at h
  unfold State.sameButResults at h' ⊢
  rw [h] at h'
  exact h'

/-- What an ENCODE run in `s`, inside a cycle of `pkt`, has done when it returns in `t` (R143, R159): the next symbols
of the cycle written, `written` of them before `s`, and the exact resume point kept. -/
structure Encoded (s : State) (pkt : List Byte) (written : Nat) (t : State) : Prop where
  out : t.out = s.out ++ s.sym.symbols ((s.remaining pkt).take (s.accepts (s.remaining pkt).length))
  draws : t.symDraws = s.drawsAfter (s.remaining pkt).length
  count : t.resWritten = BitVec.ofNat 32 (written + s.accepts (s.remaining pkt).length)
  frame : s.sameButResults t
  complete : s.accepts (s.remaining pkt).length = (s.remaining pkt).length →
    t.resState = stateComplete ∧ t.phase = .cutout ∧ t.progress = 0 ∧ t.byteIndex = 0 ∧ t.bitCursor = 0 ∧
    t.pktLatch = none
  full : s.accepts (s.remaining pkt).length ≠ (s.remaining pkt).length →
    t.resState = stateBufferFull ∧ t.pktLatch = some pkt ∧
    t.remaining pkt = (s.remaining pkt).drop (s.accepts (s.remaining pkt).length)

/-- The verdict of a handler tells how much of its segment was accepted, and whether anything remains. -/
theorem Offers.verdict_cases {s : State} {pkt : List Byte} {seg rest : List Sel} {r : PhaseRet}
    (ho : Offers s pkt seg rest r) :
    r.verdict = .full ∧ s.accepts seg.length ≠ seg.length ∨
    r.verdict = .done ∧ s.accepts seg.length = seg.length ∧ rest = [] ∨
    r.verdict = .next ∧ s.accepts seg.length = seg.length ∧ rest ≠ [] := by
  by_cases hk : s.accepts seg.length = seg.length
  · by_cases hr : rest = []
    · exact .inr (.inl ⟨(ho.done hk hr).1, hk, hr⟩)
    · exact .inr (.inr ⟨(ho.next hk hr).1, hk, hr⟩)
  · exact .inl ⟨(ho.full hk).1, hk⟩

/-- The handler finds the buffer full, and ENCODE ends there (R143). -/
theorem Offers.encoded_full {s : State} {pkt : List Byte} {seg rest : List Sel} {r : PhaseRet}
    (ho : Offers s pkt seg rest r) (hp : s.InPacket pkt) (hk : s.accepts seg.length ≠ seg.length) (written : Nat) :
    Encoded s pkt written (r.st.report (written + r.count) stateBufferFull) := by
  have hlt : s.accepts seg.length < seg.length := lt_of_le_of_ne (s.accepts_le _) hk
  have hlen : (s.remaining pkt).length = seg.length + rest.length := by rw [ho.split, List.length_append]
  have hacc : s.accepts (s.remaining pkt).length = s.accepts seg.length := by
    rw [hlen, State.accepts_add_of_full hk]
  obtain ⟨-, hrem, -⟩ := ho.full hk
  constructor
  case out =>
    rw [hacc, ho.split, List.take_append_of_le_length hlt.le]
    exact ho.out
  case draws => rw [hlen, State.drawsAfter_add_of_full hk]; exact ho.draws
  case count => rw [hacc, ← ho.count]; rfl
  case frame => exact ho.frame.trans_results rfl
  case complete => intro h; omega
  case full =>
    intro _
    refine ⟨rfl, ?_, by rw [hacc]; exact hrem⟩
    simp [ho.frame.fields, hp.latch]

/-- PH_END is done, and ENCODE reports complete (R145). -/
theorem Offers.encoded_done {s : State} {pkt : List Byte} {seg : List Sel} {r : PhaseRet}
    (ho : Offers s pkt seg [] r) (hk : s.accepts seg.length = seg.length) (written : Nat) :
    Encoded s pkt written (r.st.unlatched.report (written + r.count) stateComplete) := by
  have hrem : s.remaining pkt = seg := by rw [ho.split, List.append_nil]
  obtain ⟨-, hph, hpr, hbi, hbc⟩ := ho.done hk rfl
  constructor
  case out => rw [hrem]; exact ho.out
  case draws => rw [hrem]; exact ho.draws
  case count => rw [hrem, ← ho.count]; rfl
  case frame => exact ho.frame.trans_results rfl
  case complete => exact fun _ => ⟨rfl, hph, hpr, hbi, hbc, rfl⟩
  case full => intro h; rw [hrem] at h; exact absurd hk h

/-- The handler wrote its whole segment, and what the loop does after it ends the ENCODE: the two together write the
next symbols of the cycle, with no duplicate and no gap (R159). -/
theorem Offers.encoded_next {s t : State} {pkt : List Byte} {seg rest : List Sel} {r : PhaseRet} {written : Nat}
    (ho : Offers s pkt seg rest r) (hk : s.accepts seg.length = seg.length) (hr : rest ≠ [])
    (h : Encoded r.st pkt (written + r.count) t) : Encoded s pkt written t := by
  obtain ⟨-, hrem, -⟩ := ho.next hk hr
  have hsym : r.st.sym = s.sym := by simp only [ho.frame.fields]
  have hlen : (s.remaining pkt).length = seg.length + rest.length := by rw [ho.split, List.length_append]
  have hacc : s.accepts (s.remaining pkt).length = seg.length + r.st.accepts rest.length := by
    rw [hlen, State.accepts_add_of_accepted hk ho.draws]
  obtain ⟨hout, hdraws, hcount, hframe, hcomplete, hfull⟩ := h
  rw [hrem] at hout hdraws hcount hcomplete hfull
  constructor
  case out =>
    rw [hacc, ho.split, hout, ho.out, hk, hsym, List.take_length, List.append_assoc, ← SymTab.symbols_append,
      List.take_length_add_append]
  case draws => rw [hlen, State.drawsAfter_add_of_accepted hk ho.draws, hdraws]
  case count => rw [hacc, hcount, ho.count, hk, Nat.add_assoc]
  case frame => exact ho.frame.trans_results hframe
  case complete => intro h; exact hcomplete (by omega)
  case full =>
    intro h
    obtain ⟨hstate, hlatch, hleft⟩ := hfull (by omega)
    refine ⟨hstate, hlatch, ?_⟩
    rw [hleft, hacc, ho.split, List.drop_length_add_append]

/-- The loop of ENCODE inside a packet cycle, begun at any position (R141): by induction on the handlers. -/
theorem encodeLoop_encoded {n written : Nat} {s t : State} {pkt : List Byte} (hp : s.InPacket pkt)
    (h : encodeLoop n written s = .next t) : Encoded s pkt written t := by
  induction n generalizing written s with
  | zero => cases h
  | succ n ih =>
    obtain ⟨r, hd, hloop⟩ := encodeLoop_succ_cases h
    obtain ⟨seg, rest, ho⟩ := hp.offers_of_dispatch hd
    obtain ⟨hv, hk⟩ | ⟨hv, hk, rfl⟩ | ⟨hv, hk, hr⟩ := ho.verdict_cases
    · obtain rfl : t = _ := by simpa [hv] using hloop
      exact ho.encoded_full hp hk written
    · obtain rfl : t = _ := by simpa [hv] using hloop
      exact ho.encoded_done hk written
    · have hrest : encodeLoop n (written + r.count) r.st = .next t := by simpa [hv] using hloop
      exact ho.encoded_next hk hr (ih (hp.after_dispatch hd (by simp [hv])) hrest)

/-- Inside a packet cycle no handler faults, so the loop returns, given handlers enough. -/
theorem encodeLoop_returns {n : Nat} {s : State} {pkt : List Byte} (hp : s.InPacket pkt) (hn : s.handlersLeft ≤ n)
    (written : Nat) : ∃ t, encodeLoop n written s = .next t := by
  induction n generalizing written s with
  | zero => exact absurd hn (Nat.not_le.mpr s.handlersLeft_pos)
  | succ n ih =>
    obtain ⟨seg, rest, r, hd, -⟩ := dispatch_offers hp
    rw [encodeLoop, hd]
    cases hv : r.verdict <;> simp only [hv]
    case full | done => exact ⟨_, rfl⟩
    case next =>
      exact ih (hp.after_dispatch hd (by simp [hv])) (by have := handlersLeft_after_dispatch hd hv; omega) _

/-- The latch is not part of what remains, nor of the answers. -/
theorem Encoded.of_latched {s t : State} {pkt : List Byte} {written : Nat} (h : Encoded s.latched pkt written t) :
    Encoded s pkt written t := by
  rw [State.latched_eq] at h
  exact ⟨h.out, h.draws, h.count, h.frame, h.complete, h.full⟩

/-- An accepted ENCODE that returns has written the next symbols of the cycle. -/
theorem State.Inv.encoded {s t : State} (hs : s.Inv) (ha : s.EncodeAccepted) (h : execEncode s = .next t) :
    Encoded s s.packet 0 t :=
  .of_latched (encodeLoop_encoded (ha.latched_inPacket (hs.position ha.1)) (ha.execEncode_eq ▸ h))

/-- An accepted ENCODE returns (R148). -/
theorem State.Inv.encode_returns {s : State} (hs : s.Inv) (ha : s.EncodeAccepted) : ∃ t, execEncode s = .next t := by
  rw [ha.execEncode_eq]
  exact encodeLoop_returns (ha.latched_inPacket (hs.position ha.1)) ha.handlersLeft_le_encodeBound 0

/-! #### How much remains -/

/-- No position has more symbols to write than a whole cycle (R148). -/
theorem State.remaining_length_le (s : State) {pkt : List Byte} (hpkt : 1 ≤ pkt.length) :
    (s.remaining pkt).length ≤ need s.cfg s.cutoutEnabled .cutout + need s.cfg s.cutoutEnabled .syncZero +
      need s.cfg s.cutoutEnabled .preamble + 9 * pkt.length + 1 := by
  unfold State.remaining
  cases s.phase <;>
    simp only [List.length_append, List.length_replicate, List.length_drop, dataAndEnd_length, bitsOf_length,
      List.length_singleton]
  case start => rw [show need s.cfg s.cutoutEnabled .start = 1 from rfl]; omega
  all_goals omega

/-- A cycle has fewer than 2^32 symbols, so `RES_WRITTEN` holds their number (R9, R33). -/
theorem State.Inv.remaining_length_lt {s : State} (hs : s.Inv) (ha : s.EncodeAccepted) :
    (s.remaining s.packet).length < 2 ^ 32 := by
  obtain ⟨-, -, ⟨hlen, hmax⟩, -⟩ := ha
  rw [← State.packet_length] at hlen hmax
  obtain ⟨-, -, -, -, -, hparam⟩ := hs.params
  have hle := s.remaining_length_le hlen
  have hcut : need s.cfg s.cutoutEnabled .cutout ≤ 4 := by
    simp only [need, Config.cutoutSymbols]; split <;> omega
  have hsync : need s.cfg s.cutoutEnabled .syncZero ≤ 1 := by simp only [need]; split <;> omega
  have hpre : need s.cfg s.cutoutEnabled .preamble < 2 ^ 8 := s.cfg.preambleBits.isLt
  omega

/-- `RES_WRITTEN` is the number of symbols written (R143). -/
theorem State.Inv.resWritten_eq {s t : State} (hs : s.Inv) (ha : s.EncodeAccepted) (h : execEncode s = .next t) :
    t.resWritten.toNat = s.accepts (s.remaining s.packet).length := by
  have hle := s.accepts_le (s.remaining s.packet).length
  have hlt := hs.remaining_length_lt ha
  rw [(hs.encoded ha h).count, Nat.zero_add, BitVec.toNat_ofNat, Nat.mod_eq_of_lt (by omega)]

/-- Settles O34: the ENCODE returns, and what it has done is `Encoded`, by induction on the handlers it runs. -/
theorem encodeWritesTheNextSymbols : Obligations.EncodeWritesTheNextSymbols := by
  intro s hs ha
  obtain ⟨t, ht⟩ := hs.encode_returns ha
  have he := hs.encoded ha ht
  exact ⟨t, ht, he.out, he.draws, hs.resWritten_eq ha ht, he.complete, he.full, he.frame⟩

/-- Settles O39: ENCODE takes no more answers than there are symbols left in the cycle. -/
theorem encodeReturnsWithinItsBound : Obligations.EncodeReturnsWithinItsBound := by
  intro s hs ha
  obtain ⟨t, ht⟩ := hs.encode_returns ha
  refine ⟨t, ht, ?_⟩
  obtain ⟨-, -, ⟨hlen, -⟩, -⟩ := id ha
  have hrem := s.remaining_length_le (pkt := s.packet) (by rw [State.packet_length]; exact hlen)
  have htaken := s.drawsAfter_taken_le (s.remaining s.packet).length
  rw [State.packet_length] at hrem
  rw [(hs.encoded ha ht).draws]
  omega

end Sys2Proof.Machine

/-! ### A cycle over its ENCODE calls -/

namespace Sys2Proof.Machine

/-- After complete the whole stream of the next packet remains, from its cutout on (R145). -/
theorem Encoded.remaining_of_complete {s t : State} {pkt : List Byte} {written : Nat} (h : Encoded s pkt written t)
    (hc : t.resState = stateComplete) (next : List Byte) :
    t.remaining next = stream s.cfg s.cutoutEnabled next false := by
  by_cases hk : s.accepts (s.remaining pkt).length = (s.remaining pkt).length
  · obtain ⟨-, hph, hpr, -⟩ := h.complete hk
    have hfirst : t.isFirst = false := by rw [State.isFirst, hph]; rfl
    rw [State.remaining_of_start (.inl hph) hpr, hfirst, h.frame]
  · rw [(h.full hk).1] at hc; cases hc

/-- Settles O46: after complete the position is the start of Cutout. -/
theorem cutoutPrecedesLaterPackets : Obligations.CutoutPrecedesLaterPackets := by
  intro s t pkt hs ha ht hc
  exact (hs.encoded ha ht).remaining_of_complete hc pkt

/-- The packet is latched and nothing ENCODE reads of it has changed, so the next ENCODE is accepted too (R142). -/
theorem Encoded.accepted_again {s t : State} {pkt : List Byte} {written : Nat} (h : Encoded s pkt written t)
    (ha : s.EncodeAccepted) (hlatch : t.pktLatch = some s.packet) : t.packet = s.packet ∧ t.EncodeAccepted := by
  have hpacket : t.packet = s.packet := by rw [h.frame]; rfl
  obtain ⟨hcr, hpres, hlen, -⟩ := ha
  refine ⟨hpacket, ?_, ?_, ?_, .inr (by rw [hlatch, hpacket])⟩
  all_goals rw [h.frame]; assumption

/-- ENCODE called again while it reports buffer_full: together the calls write what remains of the cycle (R158). -/
theorem send_writes_remaining {n : Nat} {s t : State} (hs : s.Inv) (ha : s.EncodeAccepted) (h : send n s = .next t)
    (hc : t.resState = stateComplete) (hn : n = 0 → s.resState ≠ stateComplete) :
    t.out = s.out ++ s.sym.symbols (s.remaining s.packet) ∧ sendWritten n s = (s.remaining s.packet).length := by
  induction n generalizing s with
  | zero => cases h; exact absurd hc (hn rfl)
  | succ n ih =>
    obtain ⟨u, hu⟩ := hs.encode_returns ha
    have he := hs.encoded ha hu
    have hcount := hs.resWritten_eq ha hu
    simp only [send, hu] at h
    simp only [sendWritten, hu, hcount]
    by_cases hk : s.accepts (s.remaining s.packet).length = (s.remaining s.packet).length
    · rw [if_pos (he.complete hk).1] at h ⊢
      cases h
      exact ⟨by rw [he.out, hk, List.take_length], by omega⟩
    · obtain ⟨hstate, hlatch, hleft⟩ := he.full hk
      have hne : u.resState ≠ stateComplete := by rw [hstate]; decide
      obtain ⟨hpacket, hua⟩ := he.accepted_again ha hlatch
      have hsym : u.sym = s.sym := by rw [he.frame]
      rw [if_neg hne] at h ⊢
      obtain ⟨hout, hsum⟩ := ih (hs.after_encode hu) hua h (fun _ => hne)
      have hle := s.accepts_le (s.remaining s.packet).length
      rw [hpacket, hleft] at hout hsum
      refine ⟨?_, ?_⟩
      · rw [hout, he.out, hsym, List.append_assoc, ← SymTab.symbols_append, List.take_append_drop]
      · rw [hsum, List.length_drop]; omega

/-- Settles O43: at the start of the cycle the whole stream remains. -/
theorem chunkingIsTransparent : Obligations.ChunkingIsTransparent := by
  intro n s t hs ha hstart hn h hc
  rw [← cycleStartsWithTheWholeStream s s.packet hs hstart]
  exact send_writes_remaining hs ha h hc (by omega)

end Sys2Proof.Machine

/-! ### ENCODE in every state -/

namespace Sys2Proof.Machine

/-- Settles O33: the first check that holds gives the reason. -/
theorem encodeChecksItsArgumentsInOrder : Obligations.EncodeChecksItsArgumentsInOrder := by
  intro s
  refine ⟨fun hc => ?_, fun hc hp => ?_, fun hc hp hl => ?_, fun hc hp hl hn hd => ?_⟩ <;>
    refine execEncode_of_refused ?_
  · rw [checkEncodeArgs, if_pos hc]
  · rw [checkEncodeArgs, if_neg (by simp [hc]), if_pos hp]
  · rw [checkEncodeArgs, if_neg (by simp [hc]), if_neg (by simp [hp]), State.packetLen, if_pos hl]
  · rw [checkEncodeArgs, if_neg (by simp [hc]), if_neg (by simp [hp]),
      if_neg (by unfold State.packetLen; omega), if_pos ⟨hn, hd⟩]

/-- Settles O35: a refusal sets the mark, and the loop changes what its handlers, the latch and the results change. -/
theorem encodeFrame : Obligations.EncodeFrame := by
  intro s t h
  obtain ⟨-, hpkt, -⟩ := exec_inputs h
  refine ⟨?_, fun a => by rw [hpkt]⟩
  cases execEncode_effect h with
  | refused => rfl
  | bufferFull u k _ hu | complete u k _ hu => rw [State.latched_eq] at hu; rw [hu]; rfl
  | internal _ _ _ hi => cases hi

/-- The handler whose verdict ends an accepted ENCODE, and the state it runs in: every property `P` holds there that
the latch gives and completed handlers keep. -/
theorem State.EncodeAccepted.execEncode_ends {P : State → Prop} {s t : State} (ha : s.EncodeAccepted)
    (hkeep : ∀ s r, P s → dispatch s = .ok r → r.verdict = .next → P r.st) (hs : P s.latched)
    (h : execEncode s = .next t) :
    ∃ u r k, P u ∧ dispatch u = .ok r ∧
      (r.verdict = .full ∧ t = r.st.report k stateBufferFull ∨
       r.verdict = .done ∧ t = r.st.unlatched.report k stateComplete) :=
  encodeLoop_ends hkeep hs (ha.execEncode_eq ▸ h)

/-- Settles O36: the loop ends with a handler that is full or done. -/
theorem encodeReportsCompleteOrBufferFull : Obligations.EncodeReportsCompleteOrBufferFull := by
  intro s t ha h
  obtain ⟨u, r, k, -, -, ⟨-, rfl⟩ | ⟨-, rfl⟩⟩ :=
    ha.execEncode_ends (P := fun _ => True) (fun _ _ _ _ _ => trivial) trivial h
  · exact .inr rfl
  · exact .inl rfl

/-- Only PH_END is done, and its one symbol is then written (R155). -/
theorem dispatch_done {s : State} {r : PhaseRet} (h : dispatch s = .ok r) (hv : r.verdict = .done) :
    s.symAnswer = true ∧ r.st.out = s.out ++ [s.sym.endBit] ∧ r.st.symDraws = s.symDraws.rest ∧
    r.st.phase = .cutout ∧ r.st.progress = 0 ∧ r.st.byteIndex = 0 := by
  have hph : s.phase = .endBit := by
    have := phaseSuccessors s r h
    rw [hv] at this
    exact this.1
  obtain rfl : phEnd s = r := by simpa [dispatch, hph] using h
  rw [phEnd_eq] at hv ⊢
  split at hv
  next ha => rw [if_pos ha]; exact ⟨ha, rfl, rfl, rfl, rfl, rfl⟩
  next => cases hv

/-- Settles O37: ENCODE reports complete only after a handler that is done. -/
theorem completeMeansTheEndSymbolWasWritten : Obligations.CompleteMeansTheEndSymbolWasWritten := by
  intro s t ha h hc
  obtain ⟨u, r, k, hu, hd, ⟨-, rfl⟩ | ⟨hv, rfl⟩⟩ :=
    ha.execEncode_ends (P := s.latched.sameBut) (fun _ _ hp hd _ => hp.trans (dispatch_sameBut hd)) (.refl _) h
  · cases hc
  · obtain ⟨-, hout, -, hph, hpr, hbi⟩ := dispatch_done hd hv
    have hsym : u.sym = s.sym := by simp [hu.fields]
    refine ⟨?_, hph, hpr, hbi, rfl⟩
    simp [hout, hsym]

/-! #### The answers taken -/

/-- From `s` to `t` the symbols `ys` were written, every answer taken being yes (R55). -/
structure State.Wrote (s : State) (ys : List Symbol) (t : State) : Prop where
  out : t.out = s.out ++ ys
  accepts : s.accepts ys.length = ys.length
  draws : t.symDraws = s.symDraws.dropped ys.length

/-- From `s` to `t` the symbols `ys` were written, and one more was offered and refused (R144). -/
structure State.WroteThenFull (s : State) (ys : List Symbol) (t : State) : Prop where
  out : t.out = s.out ++ ys
  accepts : s.accepts (ys.length + 1) = ys.length
  draws : t.symDraws = s.symDraws.dropped (ys.length + 1)

theorem State.Wrote.refl (s : State) : s.Wrote [] s := ⟨(List.append_nil _).symm, rfl, by simp⟩

theorem State.Wrote.drawsAfter_eq {s t : State} {ys : List Symbol} (h : s.Wrote ys t) :
    t.symDraws = s.drawsAfter ys.length := h.draws.trans (State.drawsAfter_of_accepted h.accepts).symm

theorem State.Wrote.trans {s t u : State} {ys zs : List Symbol} (h : s.Wrote ys t) (h' : t.Wrote zs u) :
    s.Wrote (ys ++ zs) u where
  out := by rw [h'.out, h.out, List.append_assoc]
  accepts := by
    rw [List.length_append, State.accepts_add_of_accepted h.accepts h.drawsAfter_eq, h'.accepts]
  draws := by rw [h'.draws, h.draws, Draws.dropped_dropped, List.length_append]

theorem State.Wrote.trans_full {s t u : State} {ys zs : List Symbol} (h : s.Wrote ys t) (h' : t.WroteThenFull zs u) :
    s.WroteThenFull (ys ++ zs) u where
  out := by rw [h'.out, h.out, List.append_assoc]
  accepts := by
    rw [List.length_append, Nat.add_assoc, State.accepts_add_of_accepted h.accepts h.drawsAfter_eq, h'.accepts]
  draws := by rw [h'.draws, h.draws, Draws.dropped_dropped, List.length_append, Nat.add_assoc]

/-- What a handler's verdict says of the answers it took. -/
def PhaseRet.Answered (s : State) (r : PhaseRet) : Prop :=
  ∃ ys, match r.verdict with
    | .full => s.WroteThenFull ys r.st
    | .next | .done => s.Wrote ys r.st

/-- A handler that offers `n` symbols and writes those the buffer accepts. -/
theorem PhaseRet.Answered.of_offer {s : State} {n : Nat} {ys : List Symbol} {r : PhaseRet}
    (hv : r.verdict = phaseVerdict n (s.accepts n)) (hout : r.st.out = s.out ++ ys)
    (hlen : ys.length = s.accepts n) (hdraws : r.st.symDraws = s.drawsAfter n) : PhaseRet.Answered s r := by
  refine ⟨ys, ?_⟩
  have hle := s.accepts_le n
  by_cases hk : s.accepts n = n
  · rw [hv, phaseVerdict, if_pos hk]
    rw [hk] at hlen
    exact ⟨hout, by rw [hlen, hk], by rw [hdraws, hlen, State.drawsAfter_of_accepted hk]⟩
  · rw [hv, phaseVerdict, if_neg hk]
    refine ⟨hout, ?_, by rw [hdraws, State.drawsAfter, if_neg hk, hlen]⟩
    rw [State.accepts_of_le (show ys.length + 1 ≤ n by omega)]
    omega

theorem emitPhase_answered (sel : Sel) (total : Nat) (nxt : Phase) (s : State) :
    PhaseRet.Answered s (emitPhase sel total nxt s) := by
  rw [emitPhase_eq]
  exact .of_offer rfl rfl List.length_replicate rfl

theorem phData_answered {s : State} {r : PhaseRet} (h : phData s = .ok r) : PhaseRet.Answered s r := by
  rw [phData_eq] at h
  split at h <;> cases h
  rw [phDataByte_eq]
  refine .of_offer rfl rfl ?_ rfl
  have hle := s.bitCursor_add_accepts_le
  simp only [SymTab.symbols, List.length_map, List.length_take, List.length_drop, bitsOf_length]
  omega

theorem phEnd_answered (s : State) : PhaseRet.Answered s (phEnd s) := by
  have hacc := State.accepts_succ 0 s s.sym.endBit
  have hrest : s.symDraws.rest = s.symDraws.dropped 1 := by rw [Draws.dropped_succ, Draws.dropped_zero]
  rw [phEnd_eq]
  cases h : s.symAnswer with
  | false => rw [h] at hacc; exact ⟨[], (List.append_nil _).symm, hacc, hrest⟩
  | true => rw [h] at hacc; exact ⟨[s.sym.endBit], rfl, hacc, hrest⟩

/-- A handler's answers are all yes, but for the last where it is full (R143, R144). -/
theorem dispatch_answered {s : State} {r : PhaseRet} (h : dispatch s = .ok r) : PhaseRet.Answered s r := by
  unfold dispatch at h
  cases hp : s.phase <;> rw [hp] at h
  case data => exact phData_answered h
  case endBit => cases h; exact phEnd_answered s
  case cutout | syncZero | preamble | start => cases h; exact emitPhase_answered _ _ _ s

/-- Settles O38: the handlers before the last take only answers that are yes. -/
theorem atMostOneSymWriteIsRefused : Obligations.AtMostOneSymWriteIsRefused := by
  intro s t ha h
  have hkeep : ∀ u r, (∃ ys, s.Wrote ys u) → dispatch u = .ok r → r.verdict = .next → ∃ ys, s.Wrote ys r.st := by
    rintro u r ⟨ys, hys⟩ hd hv
    obtain ⟨zs, hzs⟩ := dispatch_answered hd
    rw [hv] at hzs
    exact ⟨ys ++ zs, hys.trans hzs⟩
  have hstart : ∃ ys, s.Wrote ys s.latched := ⟨[], by rw [State.latched_eq]; exact ⟨by simp, rfl, by simp⟩⟩
  obtain ⟨u, r, k, ⟨ys, hys⟩, hd, ⟨hv, rfl⟩ | ⟨hv, rfl⟩⟩ := ha.execEncode_ends hkeep hstart h
  · obtain ⟨zs, hzs⟩ := dispatch_answered hd
    rw [hv] at hzs
    obtain ⟨hout, hacc, hdraws⟩ := hys.trans_full hzs
    refine ⟨ys ++ zs, hout, ?_, .inr ⟨rfl, hdraws, hacc⟩⟩
    rw [State.accepts_of_le (Nat.le_succ _), hacc, Nat.min_self]
  · obtain ⟨zs, hzs⟩ := dispatch_answered hd
    rw [hv] at hzs
    obtain ⟨hout, hacc, hdraws⟩ := hys.trans hzs
    exact ⟨ys ++ zs, hout, hacc, .inl ⟨rfl, hdraws⟩⟩

end Sys2Proof.Machine

/-! ### CREATE, RESET and DESTROY -/

namespace Sys2Proof.Machine

/-! #### CREATE past its refusals -/

/-- CREATE of a present configuration that fails a check reports INVALID_ARG and allocates nothing (R182, R201). -/
theorem create_invalid {s : State} (hc : s.created = false) (hp : s.cfgArgs.present = true)
    (hf : s.cfgArgs.reservedFlags = 0) (hv : valid s.params s.cfgArgs = false) :
    create s = s.withStatus statusInvalidArg := by
  simp only [create, hc, hp, hf, hv, ne_eq, not_true_eq_false, Bool.false_eq_true, Bool.true_eq_false, if_false,
    if_true]

/-- The first of the named checks is that of R101. -/
theorem present_of_valid {p : Params} {a : CfgArgs} (hv : valid p a = true) : a.present = true :=
  ((validIsTheNamedChecks p a).mp hv).1

/-- CREATE of a valid configuration reports what the allocation answers (R180, R181). -/
theorem create_valid {s : State} (hc : s.created = false) (hf : s.cfgArgs.reservedFlags = 0)
    (hv : valid s.params s.cfgArgs = true) :
    create s = if (allocate s).1 then (allocate s).2.constructed else (allocate s).2.withStatus statusNoMem := by
  have hp := present_of_valid hv
  simp only [create, hc, hp, hf, hv, ne_eq, not_true_eq_false, Bool.false_eq_true, Bool.true_eq_false, if_false]

/-! #### The allocation -/

/-- An allocation that may fail draws one answer (R181). -/
theorem allocate_of_mayFail {s : State} (h : s.params.allocMayFail = true) :
    allocate s = (s.allocAnswer, s.allocTaken) :=
  if_pos h

/-- The allocation succeeds where it cannot fail, without a draw, and where the answer drawn is OK (R181). -/
theorem allocate_ok {s : State} (h : s.params.allocMayFail = false ∨ s.allocAnswer = true) :
    allocate s =
      (true, { s with allocDraws := if s.params.allocMayFail then s.allocDraws.rest else s.allocDraws }) := by
  cases hm : s.params.allocMayFail with
  | false => rw [allocate, hm]; rfl
  | true =>
    have ha : s.allocAnswer = true := by simpa [hm] using h
    rw [allocate_of_mayFail hm, ha]; rfl

/-- `cutout_enabled` as the test of R29. -/
theorem Cfg.cutoutFlag_eq_decide (c : Cfg) : c.cutoutFlag = decide (c.bidiCutoutDuration ≠ 0) :=
  decide_not.symm

/-! #### What CREATE answers -/

/-- Settles O15: the field checks come before the allocation. -/
theorem invalidConfigurationIsInvalidArg : Obligations.InvalidConfigurationIsInvalidArg :=
  fun _ hc hp hf hv => congrArg Host.Outcome.next (create_invalid hc hp hf hv)

/-- Settles O16: the answer drawn decides, and a failure writes the status only. -/
theorem failedAllocationIsNoMem : Obligations.FailedAllocationIsNoMem := by
  intro s hc hf hv hm ha
  have hnomem : create s = s.allocTaken.withStatus statusNoMem := by
    rw [create_valid hc hf hv, allocate_of_mayFail hm, ha]; rfl
  exact congrArg Host.Outcome.next hnomem

/-- Settles O17: the allocation succeeds and uses up at most its answer, and the rest is `State.constructed`. -/
theorem createConstructsTheEncoder : Obligations.CreateConstructsTheEncoder := by
  intro s hc hf hv ha c
  have hok : create s = (allocate s).2.constructed := by rw [create_valid hc hf hv, allocate_ok ha]; rfl
  rw [allocate_ok ha] at hok
  rw [← c.cutoutFlag_eq_decide]
  exact congrArg Host.Outcome.next hok

/-! #### RESET and DESTROY, with and without an instance -/

theorem execReset_created {s : State} (hc : s.created = true) : execReset s = .next s.packetStart :=
  congrArg Host.Outcome.next (if_pos hc)

theorem execReset_notCreated {s : State} (hc : s.created = false) : execReset s = .next (raise .notCreated s) :=
  congrArg Host.Outcome.next (if_neg (Bool.eq_false_iff.mp hc))

theorem execDestroy_created {s : State} (hc : s.created = true) : execDestroy s = .next s.destroyed :=
  congrArg Host.Outcome.next (if_pos hc)

theorem execDestroy_notCreated {s : State} (hc : s.created = false) : execDestroy s = .next (raise .notCreated s) :=
  congrArg Host.Outcome.next (if_neg (Bool.eq_false_iff.mp hc))

/-- Settles O20: with an instance RESET writes the start of a packet. -/
theorem resetReturnsToPacketStart : Obligations.ResetReturnsToPacketStart :=
  ⟨decodeHost_encode (i := .reset) rfl, fun _ => ⟨execReset_created, execReset_notCreated⟩⟩

/-- Settles O21: the free value is the next one the environment gives. -/
theorem destroyEndsTheInstance : Obligations.DestroyEndsTheInstance :=
  ⟨decodeHost_encode (i := .destroy) rfl,
    fun s => ⟨fun hc => ⟨Config.unspecified s.freeTaken, execDestroy_created hc⟩, execDestroy_notCreated⟩⟩

end Sys2Proof.Machine

/-! ### Idle steps, commands out of order, and no command that stops -/

namespace Sys2Proof.Machine

/-- A step with no command issued keeps the state (R218). -/
theorem step_idle {s : State} (hp : s.pending = []) : step s = .next s := by
  rw [step, fetch_idle hp]

/-- Settles O8: the fetch finds nothing to run. -/
theorem idleStepKeepsAllState : Obligations.IdleStepKeepsAllState := fun _ => step_idle

/-- CREATE while an encoder exists is refused before any argument is read (R205, R209). -/
theorem create_alreadyCreated {s : State} (hc : s.created = true) : create s = raise .alreadyCreated s :=
  if_pos hc

/-- Settles O11: each command tests `created` before anything else. -/
theorem lifecycleMisuseIsRefused : Obligations.LifecycleMisuseIsRefused := by
  refine fun s => ⟨fun hc => congrArg Host.Outcome.next (create_alreadyCreated hc), fun hc i hi => ?_⟩
  simp only [List.mem_cons, List.not_mem_nil, or_false] at hi
  obtain rfl | rfl | rfl := hi
  · exact execReset_notCreated hc
  · exact (encodeChecksItsArgumentsInOrder s).1 hc
  · exact execDestroy_notCreated hc

/-- ENCODE returns from every state that meets the invariants, refused or not (R148, R200). -/
theorem State.Inv.execEncode_returns {s : State} (hs : s.Inv) : ∃ t, execEncode s = .next t := by
  cases hc : checkEncodeArgs s with
  | some r => exact ⟨_, execEncode_of_refused hc⟩
  | none => exact hs.encode_returns ((checkEncodeArgs_eq_none_iff s).mp hc)

/-- Every host command returns from a state that meets the invariants (R200, R207). -/
theorem State.Inv.exec_returns {s : State} (hs : s.Inv) {i : Instr} (hi : i.hostIssuable = true) :
    ∃ t, exec i s = .next t := by
  cases i with
  | create | reset | destroy => exact ⟨_, rfl⟩
  | encode => exact hs.execEncode_returns
  | emitBit | emitByte | phCutout | phSyncZero | phPreamble | phStart | phData | phEnd => cases hi

/-- Settles O50: a step is idle, refuses a word that spells no command, or runs a host command, and ENCODE, the only
one with a loop, returns by the position invariant. -/
theorem hostCommandsNeverStop : Obligations.HostCommandsNeverStop := by
  intro s hinv hhost
  cases hp : s.pending with
  | nil => exact ⟨s, step_idle hp⟩
  | cons q rest =>
    have hq : q.port = .host := hhost q (by rw [hp]; exact List.mem_cons_self)
    cases hd : decodeHost q.word with
    | error e => exact ⟨_, step_reserved hp hq hd⟩
    | ok i =>
      have hinv' : (s.issued q rest).Inv := hinv.of_sameInstance rfl
      rw [step_run hp (by rw [hq]; exact hd)]
      exact hinv'.exec_returns (decodeHost_hostIssuable hd)

end Sys2Proof.Machine

/-! ### Power-on, and the packet after RESET -/

namespace Sys2Proof.Machine

/-- Settles O47: each field as `State.resetWith` sets it, whatever the parameters. -/
theorem powerOnState : Obligations.PowerOnState := ⟨rfl, rfl, rfl, rfl, rfl⟩

theorem selOfBit_ne_cutout (v : Bool) : selOfBit v ≠ .cutout := by
  cases v <;> decide

theorem cutout_notMem_byteFrame (b : Byte) : Sel.cutout ∉ byteFrame b := by
  have hbits : Sel.cutout ∉ bitsOf b := fun h =>
    have ⟨_, _, hn⟩ := List.mem_map.mp h
    selOfBit_ne_cutout _ hn
  exact List.not_mem_cons_of_ne_of_not_mem (by decide) hbits

theorem cutout_notMem_dataAndEnd (pkt : List Byte) : Sel.cutout ∉ dataAndEnd pkt := by
  simp [dataAndEnd, cutout_notMem_byteFrame]

/-- The stream of a first packet has no cutout, enabled or not (R156, R234). -/
theorem cutout_notMem_stream_first (c : Cfg) (cutoutEnabled : Bool) (pkt : List Byte) :
    Sel.cutout ∉ stream c cutoutEnabled pkt true := by
  have hsync : Sel.cutout ∉ (if c.syncZeroEnabled then [Sel.zero] else []) := by split <;> decide
  simp [stream, hsync, cutout_notMem_dataAndEnd]

/-- Settles O45: RESET writes the start of SyncZero, from where the stream of a first packet remains. -/
theorem noCutoutAfterReset : Obligations.NoCutoutAfterReset := by
  intro s t pkt hc ht
  obtain rfl : s.packetStart = t := Host.Outcome.next.inj ((execReset_created hc).symm.trans ht)
  have hrem : s.packetStart.remaining pkt = stream s.cfg s.cutoutEnabled pkt true :=
    State.remaining_of_start (.inr rfl) rfl pkt
  exact ⟨hrem, hrem ▸ cutout_notMem_stream_first s.cfg s.cutoutEnabled pkt⟩

end Sys2Proof.Machine
